-- ==== Sys2Proof/Word.lean ====
section
/-! DEFINITION. The word types of the CORE: limbs and bus words of 32 bits, offsets in the register window,
big-register numbers. -/

namespace Sys2Proof

/-- A word of the host bus, a control register or a limb: `LIMB_W = 32` bits (00_scope.md R8, R10). -/
abbrev Word := BitVec 32

/-- The low 15 address bits, which are all the port decodes: a byte offset `0x0000` to `0x7FFF` from `CORE_BASE`
(20_memory.md R60, R61). -/
abbrev Offset := BitVec 15

/-- The number of a big register, B0 to B7 (10_state.md R20). -/
abbrev Reg := Fin 8

end Sys2Proof
end

