-- ==== Sys2Proof/Syntax.lean ====
section
/-! DEFINITION. The commands of the CORE, one constructor per row of spec/opcode_table.json, and the
pseudo-instructions that stand for them. -/

namespace Sys2Proof

/-- The 17 commands (30_encoding.md R94). Operands stand in field order D0, D1, D2, S0, S1, S2, restricted to the
fields the opcode uses (R102); LDI's immediate is its 12-bit field (R95). -/
inductive Instr where
  | ldi (d0 : Reg) (imm : BitVec 12)
  | mov (d0 s0 : Reg)
  | add (d0 s0 s1 : Reg)
  | sub (d0 s0 s1 : Reg)
  | cmp (s0 s1 : Reg)
  | tst (s0 : Reg)
  | bitlen (d0 s0 : Reg)
  | mul (d0 s0 s1 : Reg)
  | divmod (d0 d1 s0 s1 : Reg)
  | div (d0 s0 s1 : Reg)
  | mod (d0 s0 s1 : Reg)
  | modmul (d0 s0 s1 s2 : Reg)
  | modexp (d0 s0 s1 s2 : Reg)
  | mrround (s0 s1 : Reg)
  | egcd (d0 d1 d2 s0 s1 : Reg)
  | gcd (d0 s0 s1 : Reg)
  | modinv (d0 s0 s1 : Reg)
deriving DecidableEq, Repr

/-- The registers a command's destination fields name, D0 first (R93, R94). -/
def Instr.dests : Instr → List Reg
  | .ldi d0 _ => [d0]
  | .mov d0 _ => [d0]
  | .add d0 _ _ => [d0]
  | .sub d0 _ _ => [d0]
  | .cmp _ _ => []
  | .tst _ => []
  | .bitlen d0 _ => [d0]
  | .mul d0 _ _ => [d0]
  | .divmod d0 d1 _ _ => [d0, d1]
  | .div d0 _ _ => [d0]
  | .mod d0 _ _ => [d0]
  | .modmul d0 _ _ _ => [d0]
  | .modexp d0 _ _ _ => [d0]
  | .mrround _ _ => []
  | .egcd d0 d1 d2 _ _ => [d0, d1, d2]
  | .gcd d0 _ _ => [d0]
  | .modinv d0 _ _ => [d0]

/-- The registers a command's source fields name, S0 first (R93, R94). -/
def Instr.sources : Instr → List Reg
  | .ldi _ _ => []
  | .mov _ s0 => [s0]
  | .add _ s0 s1 => [s0, s1]
  | .sub _ s0 s1 => [s0, s1]
  | .cmp s0 s1 => [s0, s1]
  | .tst s0 => [s0]
  | .bitlen _ s0 => [s0]
  | .mul _ s0 s1 => [s0, s1]
  | .divmod _ _ s0 s1 => [s0, s1]
  | .div _ s0 s1 => [s0, s1]
  | .mod _ s0 s1 => [s0, s1]
  | .modmul _ s0 s1 s2 => [s0, s1, s2]
  | .modexp _ s0 s1 s2 => [s0, s1, s2]
  | .mrround s0 s1 => [s0, s1]
  | .egcd _ _ _ s0 s1 => [s0, s1]
  | .gcd _ s0 s1 => [s0, s1]
  | .modinv _ s0 s1 => [s0, s1]

/-- The pseudo-instructions (R104). -/
inductive Pseudo where
  | clr (d : Reg)
  | sqr (d s : Reg)
  | modsqr (d s m : Reg)
  | inv (d a m : Reg)
  | pow (d b e m : Reg)
deriving DecidableEq, Repr

/-- The one real command each pseudo-instruction stands for (R104). -/
def Pseudo.expand : Pseudo → Instr
  | .clr d => .ldi d 0#12
  | .sqr d s => .mul d s s
  | .modsqr d s m => .modmul d s s m
  | .inv d a m => .modinv d a m
  | .pow d b e m => .modexp d b e m

end Sys2Proof
end

