-- ==== Sys2Proof/WellFormed.lean ====
section
/-! DEFINITION. What a command must satisfy beyond the types of its operands. The register numbers 0 to 7 and the
12-bit immediate are in the types; what is left is 30_encoding.md R97. -/

namespace Sys2Proof

/-- Destination registers are pairwise distinct (R97). Only DIVMOD and EGCD have more than one. -/
def Instr.wellFormed (i : Instr) : Bool := decide i.dests.Nodup

end Sys2Proof
end

