-- ==== Sys2Proof/Decode.lean ====
section
/-! DEFINITION. Command words to commands (30_encoding.md R90 to R101), total on every 32-bit word and refusing by
name, then the encoder (R103), the legality check in the spec's own form (R101) and the opcode table. -/

namespace Sys2Proof

/-- Why a word is illegal; each completes with ILLEGAL_COMMAND (60_exceptions.md R214). -/
inductive Illegal where
  /-- An opcode that R94 does not define (R98). -/
  | reservedOpcode
  /-- A used register field with value 8 to 15 (R93). -/
  | registerField
  /-- An unused field, or LDI's bits `[19:12]`, not zero (R96). -/
  | unusedField
  /-- DIVMOD or EGCD with a repeated destination (R97). -/
  | repeatedDestination
deriving DecidableEq, Repr

/-- The six register fields of format R (R91). -/
inductive Field where
  | D0 | D1 | D2 | S0 | S1 | S2
deriving DecidableEq, Repr

/-- The lowest bit of a field (R91). -/
def Field.low : Field → Nat
  | .D0 => 8
  | .D1 => 12
  | .D2 => 16
  | .S0 => 20
  | .S1 => 24
  | .S2 => 28

/-- `w[lo+3:lo]`, a register field (R91). -/
def field (w : Word) (f : Field) : BitVec 4 := w.extractLsb' f.low 4

/-- The opcode byte `w[7:0]` (R90). -/
def opcodeOf (w : Word) : BitVec 8 := w.extractLsb' 0 8

/-- The register number in the low 3 bits of a field (R93). -/
def regOf (w : Word) (f : Field) : Reg := ⟨(field w f).toNat % 8, Nat.mod_lt _ (by decide)⟩

/-- The checks on the fields of a format-R word: bit 3 of every used field is 0 (R93), every unused field is 0
(R96). -/
def checkFields (w : Word) (used unused : List Field) : Option Illegal :=
  if used.any (fun f => (field w f).getLsbD 3) then some .registerField
  else if unused.any (fun f => field w f != 0#4) then some .unusedField
  else none

/-- A format-R word with the fields its opcode uses and does not use, and the command its fields name. -/
def decodeR (w : Word) (used unused : List Field) (i : Instr) : Except Illegal Instr :=
  match checkFields w used unused with
  | some e => .error e
  | none => if i.wellFormed then .ok i else .error .repeatedDestination

/-- A format-I word, LDI (R92). -/
def decodeI (w : Word) : Except Illegal Instr :=
  if (field w .D0).getLsbD 3 then .error .registerField
  else if w.extractLsb' 12 8 != 0#8 then .error .unusedField
  else .ok (.ldi (regOf w .D0) (w.extractLsb' 20 12))

/-- The decoder: total, and every word is a command or is illegal by name (R94, R99). -/
def decode (w : Word) : Except Illegal Instr :=
  match (opcodeOf w).toNat with
  | 0x01 => decodeI w
  | 0x02 => decodeR w [.D0, .S0] [.D1, .D2, .S1, .S2] (.mov (regOf w .D0) (regOf w .S0))
  | 0x03 => decodeR w [.D0, .S0, .S1] [.D1, .D2, .S2] (.add (regOf w .D0) (regOf w .S0) (regOf w .S1))
  | 0x04 => decodeR w [.D0, .S0, .S1] [.D1, .D2, .S2] (.sub (regOf w .D0) (regOf w .S0) (regOf w .S1))
  | 0x05 => decodeR w [.S0, .S1] [.D0, .D1, .D2, .S2] (.cmp (regOf w .S0) (regOf w .S1))
  | 0x06 => decodeR w [.S0] [.D0, .D1, .D2, .S1, .S2] (.tst (regOf w .S0))
  | 0x07 => decodeR w [.D0, .S0] [.D1, .D2, .S1, .S2] (.bitlen (regOf w .D0) (regOf w .S0))
  | 0x10 => decodeR w [.D0, .S0, .S1] [.D1, .D2, .S2] (.mul (regOf w .D0) (regOf w .S0) (regOf w .S1))
  | 0x18 => decodeR w [.D0, .D1, .S0, .S1] [.D2, .S2]
      (.divmod (regOf w .D0) (regOf w .D1) (regOf w .S0) (regOf w .S1))
  | 0x19 => decodeR w [.D0, .S0, .S1] [.D1, .D2, .S2] (.div (regOf w .D0) (regOf w .S0) (regOf w .S1))
  | 0x1A => decodeR w [.D0, .S0, .S1] [.D1, .D2, .S2] (.mod (regOf w .D0) (regOf w .S0) (regOf w .S1))
  | 0x20 => decodeR w [.D0, .S0, .S1, .S2] [.D1, .D2]
      (.modmul (regOf w .D0) (regOf w .S0) (regOf w .S1) (regOf w .S2))
  | 0x28 => decodeR w [.D0, .S0, .S1, .S2] [.D1, .D2]
      (.modexp (regOf w .D0) (regOf w .S0) (regOf w .S1) (regOf w .S2))
  | 0x30 => decodeR w [.S0, .S1] [.D0, .D1, .D2, .S2] (.mrround (regOf w .S0) (regOf w .S1))
  | 0x38 => decodeR w [.D0, .D1, .D2, .S0, .S1] [.S2]
      (.egcd (regOf w .D0) (regOf w .D1) (regOf w .D2) (regOf w .S0) (regOf w .S1))
  | 0x39 => decodeR w [.D0, .S0, .S1] [.D1, .D2, .S2] (.gcd (regOf w .D0) (regOf w .S0) (regOf w .S1))
  | 0x3A => decodeR w [.D0, .S0, .S1] [.D1, .D2, .S2] (.modinv (regOf w .D0) (regOf w .S0) (regOf w .S1))
  | _ => .error .reservedOpcode

/-- The instruction the decoder reads from the low `nbits` bits of `w`, every bit above them 0. A command is one
32-bit word (R90), so no longer instruction exists. -/
def decodeTableWord (nbits w : Nat) : Option Instr :=
  if nbits ≤ 32 then
    match decode (BitVec.ofNat 32 (w % 2 ^ nbits)) with
    | .ok i => some i
    | .error _ => none
  else none

/-! ### The encoder -/

/-- A register number as a 4-bit field with bit 3 zero (R93). -/
def regField (r : Reg) : BitVec 4 := BitVec.ofNat 4 r.val

/-- Format R: `OP | D0 << 8 | D1 << 12 | D2 << 16 | S0 << 20 | S1 << 24 | S2 << 28` (R91, R103). -/
def wordR (op : BitVec 8) (d0 d1 d2 s0 s1 s2 : BitVec 4) : Word :=
  op.setWidth 32 ||| d0.setWidth 32 <<< 8 ||| d1.setWidth 32 <<< 12 ||| d2.setWidth 32 <<< 16
    ||| s0.setWidth 32 <<< 20 ||| s1.setWidth 32 <<< 24 ||| s2.setWidth 32 <<< 28

/-- Format I: `0x01 | D0 << 8 | imm << 20` (R92, R103). -/
def wordI (d0 : BitVec 4) (imm : BitVec 12) : Word :=
  0x01#32 ||| d0.setWidth 32 <<< 8 ||| imm.setWidth 32 <<< 20

/-- The word an assembler produces, every unused field 0 (R103). -/
def encode : Instr → Word
  | .ldi d0 imm => wordI (regField d0) imm
  | .mov d0 s0 => wordR 0x02#8 (regField d0) 0 0 (regField s0) 0 0
  | .add d0 s0 s1 => wordR 0x03#8 (regField d0) 0 0 (regField s0) (regField s1) 0
  | .sub d0 s0 s1 => wordR 0x04#8 (regField d0) 0 0 (regField s0) (regField s1) 0
  | .cmp s0 s1 => wordR 0x05#8 0 0 0 (regField s0) (regField s1) 0
  | .tst s0 => wordR 0x06#8 0 0 0 (regField s0) 0 0
  | .bitlen d0 s0 => wordR 0x07#8 (regField d0) 0 0 (regField s0) 0 0
  | .mul d0 s0 s1 => wordR 0x10#8 (regField d0) 0 0 (regField s0) (regField s1) 0
  | .divmod d0 d1 s0 s1 => wordR 0x18#8 (regField d0) (regField d1) 0 (regField s0) (regField s1) 0
  | .div d0 s0 s1 => wordR 0x19#8 (regField d0) 0 0 (regField s0) (regField s1) 0
  | .mod d0 s0 s1 => wordR 0x1A#8 (regField d0) 0 0 (regField s0) (regField s1) 0
  | .modmul d0 s0 s1 s2 => wordR 0x20#8 (regField d0) 0 0 (regField s0) (regField s1) (regField s2)
  | .modexp d0 s0 s1 s2 => wordR 0x28#8 (regField d0) 0 0 (regField s0) (regField s1) (regField s2)
  | .mrround s0 s1 => wordR 0x30#8 0 0 0 (regField s0) (regField s1) 0
  | .egcd d0 d1 d2 s0 s1 =>
      wordR 0x38#8 (regField d0) (regField d1) (regField d2) (regField s0) (regField s1) 0
  | .gcd d0 s0 s1 => wordR 0x39#8 (regField d0) 0 0 (regField s0) (regField s1) 0
  | .modinv d0 s0 s1 => wordR 0x3A#8 (regField d0) 0 0 (regField s0) (regField s1) 0

/-! ### The legality check in the spec's own form -/

/-- OPCODES and USED: the register fields each defined opcode uses (R94); `none` for a reserved opcode. -/
def usedFields (op : Nat) : Option (List Field) :=
  match op with
  | 0x01 => some [.D0]
  | 0x02 => some [.D0, .S0]
  | 0x03 => some [.D0, .S0, .S1]
  | 0x04 => some [.D0, .S0, .S1]
  | 0x05 => some [.S0, .S1]
  | 0x06 => some [.S0]
  | 0x07 => some [.D0, .S0]
  | 0x10 => some [.D0, .S0, .S1]
  | 0x18 => some [.D0, .D1, .S0, .S1]
  | 0x19 => some [.D0, .S0, .S1]
  | 0x1A => some [.D0, .S0, .S1]
  | 0x20 => some [.D0, .S0, .S1, .S2]
  | 0x28 => some [.D0, .S0, .S1, .S2]
  | 0x30 => some [.S0, .S1]
  | 0x38 => some [.D0, .D1, .D2, .S0, .S1]
  | 0x39 => some [.D0, .S0, .S1]
  | 0x3A => some [.D0, .S0, .S1]
  | _ => none

/-- `Legal(w)`, written as R101 writes it, independently of `decode`. -/
def legal (w : Word) : Bool :=
  match usedFields (opcodeOf w).toNat with
  | none => false
  | some used =>
    if opcodeOf w = 0x01#8 then !w.getLsbD 11 && w.extractLsb' 12 8 == 0#8
    else
      [Field.D0, .D1, .D2, .S0, .S1, .S2].all
          (fun f => if f ∈ used then !(field w f).getLsbD 3 else field w f == 0#4)
        && decide (([Field.D0, .D1, .D2].filter (· ∈ used)).map (field w ·)).Nodup

/-! ### The opcode table -/

/-- One row of spec/opcode_table.json: a word is the row's when `w & mask = match`. -/
structure OpcodeRow where
  mnemonic : String
  matchBits : Word
  mask : Word
deriving DecidableEq, Repr

/-- spec/opcode_table.json, row by row. -/
def opcodeTable : List OpcodeRow :=
  [ ⟨"LDI", 0x00000001#32, 0x000FF8FF#32⟩, ⟨"MOV", 0x00000002#32, 0xFF8FF8FF#32⟩,
    ⟨"ADD", 0x00000003#32, 0xF88FF8FF#32⟩, ⟨"SUB", 0x00000004#32, 0xF88FF8FF#32⟩,
    ⟨"CMP", 0x00000005#32, 0xF88FFFFF#32⟩, ⟨"TST", 0x00000006#32, 0xFF8FFFFF#32⟩,
    ⟨"BITLEN", 0x00000007#32, 0xFF8FF8FF#32⟩, ⟨"MUL", 0x00000010#32, 0xF88FF8FF#32⟩,
    ⟨"DIVMOD", 0x00000018#32, 0xF88F88FF#32⟩, ⟨"DIV", 0x00000019#32, 0xF88FF8FF#32⟩,
    ⟨"MOD", 0x0000001A#32, 0xF88FF8FF#32⟩, ⟨"MODMUL", 0x00000020#32, 0x888FF8FF#32⟩,
    ⟨"MODEXP", 0x00000028#32, 0x888FF8FF#32⟩, ⟨"MRROUND", 0x00000030#32, 0xF88FFFFF#32⟩,
    ⟨"EGCD", 0x00000038#32, 0xF88888FF#32⟩, ⟨"GCD", 0x00000039#32, 0xF88FF8FF#32⟩,
    ⟨"MODINV", 0x0000003A#32, 0xF88FF8FF#32⟩ ]

/-- A command's mnemonic, as R94 and the table spell it. -/
def mnemonic : Instr → String
  | .ldi _ _ => "LDI"
  | .mov _ _ => "MOV"
  | .add _ _ _ => "ADD"
  | .sub _ _ _ => "SUB"
  | .cmp _ _ => "CMP"
  | .tst _ => "TST"
  | .bitlen _ _ => "BITLEN"
  | .mul _ _ _ => "MUL"
  | .divmod _ _ _ _ => "DIVMOD"
  | .div _ _ _ => "DIV"
  | .mod _ _ _ => "MOD"
  | .modmul _ _ _ _ => "MODMUL"
  | .modexp _ _ _ _ => "MODEXP"
  | .mrround _ _ => "MRROUND"
  | .egcd _ _ _ _ _ => "EGCD"
  | .gcd _ _ _ => "GCD"
  | .modinv _ _ _ => "MODINV"

end Sys2Proof
end

