-- ==== Sys2Proof/Config.lean ====
section
/-! DEFINITION. What an implementation of the CORE fixes (00_scope.md R8): capacity, identification, and the two
values the spec leaves open, which have no body here and so no value a proof could use. -/

namespace Sys2Proof

/-- `LIMB_W`, bits per limb (R8). -/
abbrev Config.limbWidth : Nat := 32

/-- `NREG`, the number of big registers (R8, R20). -/
abbrev Config.nreg : Nat := 8

/-- `MAXLIMBS` of this hardware, limbs per big register (R8). The model takes `MAXLIMBS` as an argument, `maxLimbs`,
which stands for this value wherever it is not given (R8, D4, 93 U14; log 7). -/
abbrev Config.maxLimbs : Nat := 512

/-- `MAXBITS = LIMB_W * MAXLIMBS`, the magnitude width of a big register (R8). -/
def Config.maxBits (maxLimbs : Nat := Config.maxLimbs) : Nat := Config.limbWidth * maxLimbs

/-- `MAXMAG`, the largest magnitude a big register holds (R8, 93 U14). -/
def Config.maxMag (maxLimbs : Nat := Config.maxLimbs) : Nat := 2 ^ Config.maxBits maxLimbs - 1

/-- `ID_VALUE`, ASCII "RSA1" (R3, R27). -/
def Config.idValue : Word := 0x52534131#32

/-- The PARAM register: NREG in `[7:0]`, LIMB_W in `[15:8]`, MAXLIMBS in `[31:16]` (R28). -/
def Config.paramValue (maxLimbs : Nat := Config.maxLimbs) : Word :=
  BitVec.ofNat 32 (Config.nreg + Config.limbWidth * 2 ^ 8 + maxLimbs * 2 ^ 16)

/-- Bytes of one limb window: 4 for each limb, `0x800` on this hardware (R63, R65). -/
abbrev Config.limbWindow (maxLimbs : Nat := Config.maxLimbs) : Nat := 4 * maxLimbs

/-- Offset of B0's limb window (R63). -/
abbrev Config.limbBase : Nat := 0x1000

/-- Offset after B7's limb window, `0x5000` on this hardware (R63). -/
abbrev Config.limbEnd (maxLimbs : Nat := Config.maxLimbs) : Nat :=
  Config.limbBase + Config.nreg * Config.limbWindow maxLimbs

/-- `WINDOW`, the bytes of the decoded bus window (R8, R60). -/
def Config.window : Nat := 0x8000

/-- OPEN in the spec: which multiple of the window size `CORE_BASE` is (R8, R61, D29; log 8). -/
opaque Config.coreBaseIndex : Nat

/-- `CORE_BASE`, a multiple of `0x8000` (R61). -/
def Config.coreBase : Nat := Config.window * Config.coreBaseIndex

/-- FREE VALUE: the bits limb `i` of register `r` holds after the power-on reset numbered `k`, until something
writes the limb. The spec leaves them unspecified (R42, 93 U1; log 1). -/
opaque Config.powerOnLimb : (k r i : Nat) → Word

end Sys2Proof
end

