-- ==== Sys2Proof/Machine/State.lean ====
section
/-! DEFINITION. The state of the CORE as plain data (10_state.md), the events the model lets happen to it, the
reasons a step can stop, and the state after power-on reset (R42, R250). -/

namespace Sys2Proof.Machine

/-- The storage of one big register (R21). Bits `[32i+31:32i]` of `mag` are `limb[r][i]` (log 6); bit `i` of `defd`
is the model-only flag `def[r][i]` (R40). The sign bit is in SIGN. -/
structure BigReg (maxLimbs : Nat := Config.maxLimbs) where
  mag : BitVec (Config.maxBits maxLimbs)
  defd : BitVec maxLimbs
deriving DecidableEq, Repr

/-- The limb storage of B0 to B7. The CORE has no memory of its own (20_memory.md R60); this file is its only
storage (R82), and the limb windows of its address space are the bus's view of it (R65). -/
abbrev Memory (maxLimbs : Nat := Config.maxLimbs) := Vector (BigReg maxLimbs) Config.nreg

/-- CTRL: IE is its only stored bit; ABORT and SRST are actions of a write and read 0 (R29). -/
structure Ctrl where
  ie : Bool
deriving DecidableEq, Repr

/-- STATUS (R30); its reserved bits are not stored. -/
structure Status where
  busy : Bool
  done : Bool
  err : Bool
  werr : Bool
  errcode : BitVec 4
deriving DecidableEq, Repr

/-- FLAGS (R32); its reserved bits are not stored. -/
structure Flags where
  z : Bool
  n : Bool
  odd : Bool
  lt : Bool
  eq : Bool
  gt : Bool
  pass : Bool
deriving DecidableEq, Repr

/-- The width of a bus access (R62). -/
inductive Width where
  | w8 | w16 | w32
deriving DecidableEq, Repr

/-- What a bus access does at its offset (R14). -/
inductive HostOp where
  | read (width : Width)
  | write (width : Width) (data : Word)
deriving DecidableEq, Repr

/-- What can happen next to the CORE (00_scope.md R18). -/
inductive Event where
  /-- A host access at byte offset `off` from `CORE_BASE`. -/
  | port (off : Offset) (op : HostOp)
  /-- A host access at bus address `addr`, for the CORE only if `addr` lies in its window (R61). -/
  | bus (addr : Nat) (op : HostOp)
  /-- The sequencer's turn: the completion step, where it is enabled (R112). -/
  | complete
  /-- Power is lost and power-on reset is released (R237, R250). -/
  | powerOn
deriving DecidableEq, Repr

/-- The port's answer to an access: a read's data, a write's normal response, or a bus error, which for a read
carries data (R62, R64, R68). -/
inductive Response where
  | readData (w : Word)
  | written
  | readError (w : Word)
  | writeError
deriving DecidableEq, Repr

/-- The whole machine, for a capacity of `maxLimbs` limbs; `State` alone is this hardware's (R8; log 7). `agenda`,
`response` and `powerOns` are the model's own (logs 3, 10, 11); every other field is the spec's, and R42 names them
all. -/
structure State (maxLimbs : Nat := Config.maxLimbs) where
  /-- `limb[r][i]` and `def[r][i]` of B0 to B7 (R20, R21, R40). -/
  regs : Memory maxLimbs
  /-- SIGN `[7:0]`: bit `r` is `sgn[r]` (R33). -/
  sign : BitVec 8
  /-- CTRL (R29). -/
  ctrl : Ctrl
  /-- STATUS (R30). -/
  status : Status
  /-- FLAGS (R32). -/
  flags : Flags
  /-- CMDLAST, the word in execution while BUSY = 1 (R39). -/
  cmdLast : Word
  /-- The events still to come, first one first. Host accesses and completions interleave in any order (R255), so a
  statement is made for every agenda. -/
  agenda : List Event
  /-- The answer to the last access the port took, if any. -/
  response : Option Response
  /-- How many further power-on resets there have been: the argument of the free value `Config.powerOnLimb`. -/
  powerOns : Nat
deriving DecidableEq, Repr

/-- Why a step stops with a fault. `step` itself never does: the spec gives every event an effect. -/
inductive Fault where
  /-- Raised by `guardedStep` only: the step would read limb storage that nothing has written (R40, 93 U1). Safe: the
  hardware goes on with whatever bits the storage holds. -/
  | undefinedLimb
deriving DecidableEq, Repr

/-- Why a step has no meaning. No arm of `exec` refuses. -/
inductive Refusal where
  /-- Raised by `exec` for a command that has no meaning yet: none is left. Safe. -/
  | notModelled (mnemonic : String)
deriving DecidableEq, Repr

/-- FLAGS `0x0000_0000`. -/
def Flags.zero : Flags := ⟨false, false, false, false, false, false, false⟩

/-- STATUS `0x0000_0000`. -/
def Status.zero : Status := ⟨false, false, false, false, 0#4⟩

/-- The limb storage after power-on: no limb is defined. The zero bits stand for nothing: a limb that is not defined
reads as `Config.powerOnLimb` (R40, R42; log 1). -/
def Memory.powerOn {maxLimbs : Nat} : Memory maxLimbs := Vector.replicate Config.nreg ⟨0#_, 0#_⟩

/-- A machine of capacity `maxLimbs` right after power-on reset (R42, R250). -/
def State.resetAt (maxLimbs : Nat) : State maxLimbs where
  regs := Memory.powerOn
  sign := 0#8
  ctrl := ⟨false⟩
  status := Status.zero
  flags := Flags.zero
  cmdLast := 0#32
  agenda := []
  response := none
  powerOns := 0

/-- The machine right after power-on reset (R42, R250). -/
def State.reset : State := State.resetAt Config.maxLimbs

end Sys2Proof.Machine
end

