-- ==== Sys2Proof/Machine/Flags.lean ====
section
/-! DEFINITION. The computations of FLAGS (10_state.md R32 to R37) and its word. -/

namespace Sys2Proof.Machine

/-- The flags of a command with primary value `p`: Z, N and ODD from `p`, the others 0 (R35). ODD reads the magnitude
(R129). -/
def Flags.ofPrimary (p : Int) : Flags :=
  { Flags.zero with z := decide (p = 0), n := decide (p < 0), odd := decide (p.natAbs % 2 = 1) }

/-- The flags of CMP: signed comparison, the others 0 (R36, R128). -/
def Flags.ofCompare (a b : Int) : Flags :=
  { Flags.zero with lt := decide (a < b), eq := decide (a = b), gt := decide (a > b) }

/-- The flags of MRROUND: PASS, the others 0 (R37, R181). -/
def Flags.ofPass (p : Bool) : Flags := { Flags.zero with pass := p }

/-- FLAGS as the host reads it (R32). -/
def Flags.toWord (f : Flags) : Word :=
  BitVec.ofNat 32 (f.z.toNat + 2 * f.n.toNat + 4 * f.odd.toNat + 8 * f.lt.toNat + 16 * f.eq.toNat
    + 32 * f.gt.toNat + 64 * f.pass.toNat)

end Sys2Proof.Machine
end

