-- ==== Sys2Proof/Machine/Operands.lean ====
section
/-! DEFINITION. Reading and writing the big registers: limbs (20_memory.md R66), values (10_state.md R22) and the
canonical form a commit writes (R23). -/

namespace Sys2Proof.Machine

variable {maxLimbs : Nat}

/-- The stored bits of limb `i`. -/
def BigReg.limbBits (b : BigReg maxLimbs) (i : Nat) : Word := b.mag.extractLsb' (32 * i) 32

/-- Store one limb and mark it defined; every other limb stays (R66). -/
def BigReg.setLimb (b : BigReg maxLimbs) (i : Nat) (v : Word) : BigReg maxLimbs where
  mag := (b.mag &&& ~~~((BitVec.allOnes 32).setWidth (Config.maxBits maxLimbs) <<< (32 * i)))
    ||| v.setWidth (Config.maxBits maxLimbs) <<< (32 * i)
  defd := b.defd ||| BitVec.twoPow maxLimbs i

/-- Every limb is defined (R40). -/
def BigReg.allDefined (b : BigReg maxLimbs) : Bool := b.defd == BitVec.allOnes maxLimbs

/-- A register holding the magnitude `m`: all limbs written, all defined (R23, R40). -/
def BigReg.ofMagnitude (m : Nat) : BigReg maxLimbs := ⟨BitVec.ofNat _ m, BitVec.allOnes _⟩

/-- `limb[r][i]`: the bits stored there, or the free bits of the last power-on where nothing has been stored
(R21, R40; log 1). -/
def State.limb (s : State maxLimbs) (r : Reg) (i : Nat) : Word :=
  if s.regs[r].defd.getLsbD i then s.regs[r].limbBits i else Config.powerOnLimb s.powerOns r i

/-- `sum over i < n of f i * 2^(32 i)` (R21). -/
def limbSum (f : Nat → Word) : Nat → Nat
  | 0 => 0
  | n + 1 => limbSum f n + (f n).toNat * 2 ^ (32 * n)

/-- `mag(r)`, the sum of R21 over all limbs. Where all limbs are stored, that sum is the stored number itself
(Laws/Limbs.lean, `limbSum_limb_of_allDefined`), and the first branch says so without adding it up. -/
def State.magnitude (s : State maxLimbs) (r : Reg) : Nat :=
  if s.regs[r].allDefined then s.regs[r].mag.toNat else limbSum (s.limb r) maxLimbs

/-- `sgn[r]`, bit `r` of SIGN (R21, R33). -/
def State.sgn (s : State maxLimbs) (r : Reg) : Bool := s.sign.getLsbD r

/-- `val(B[r])`: sign and magnitude, negative zero reading as 0 (R22). -/
def State.val (s : State maxLimbs) (r : Reg) : Int :=
  if s.sgn r ∧ s.magnitude r ≠ 0 then -(s.magnitude r : Int) else s.magnitude r

/-- SIGN with bit `r` set to `b`. -/
def setSignBit (sign : BitVec 8) (r : Reg) (b : Bool) : BitVec 8 :=
  if b then sign ||| BitVec.twoPow 8 r else sign &&& ~~~BitVec.twoPow 8 r

/-- `B[r] <- v`, for `|v| <= MAXMAG`: all limbs and the sign bit, in canonical form (R23). -/
def State.writeVal (s : State maxLimbs) (r : Reg) (v : Int) : State maxLimbs :=
  { s with
    regs := s.regs.set r (BigReg.ofMagnitude v.natAbs)
    sign := setSignBit s.sign r (decide (v < 0)) }

/-- A host write of one limb: that limb and its `def` flag, nothing else (R66). -/
def State.writeLimb (s : State maxLimbs) (r : Reg) (i : Nat) (v : Word) : State maxLimbs :=
  { s with regs := s.regs.set r (s.regs[r].setLimb i v) }

/-- The form the limb storage keeps: a limb that nothing has written holds zero bits, so equal contents are equal
data. It is the canonical form of the CORE's only storage. -/
def BigReg.wf (b : BigReg maxLimbs) : Bool :=
  (List.range maxLimbs).all (fun i => b.defd.getLsbD i || b.limbBits i == 0#32)

/-- The canonical form of the whole limb storage. -/
def Memory.wf (m : Memory maxLimbs) : Bool := m.all BigReg.wf

end Sys2Proof.Machine
end

