-- ==== Sys2Proof/Machine/Ops.lean ====
section
/-! DEFINITION. The shared operations of the command life cycle: acceptance (30_encoding.md R110), the error
completion, which is this hardware's exception (60_exceptions.md R225), its acknowledgement (R227), the successful
commit (R112, R113), abort (R226) and the resets (70_reset_and_hazards.md R250, R251). -/

namespace Sys2Proof.Machine

variable {maxLimbs : Nat}

/-- The seven error kinds (R210). Codes 8 to 15 do not exist (R218). -/
inductive ErrCode where
  | divisionByZero | invalidModulus | noInverseExists | illegalCommand | capacityExceeded | invalidOperand | aborted
deriving DecidableEq, Repr

/-- The number STATUS.ERRCODE reports (R210). -/
def ErrCode.code : ErrCode → BitVec 4
  | .divisionByZero => 1#4
  | .invalidModulus => 2#4
  | .noInverseExists => 3#4
  | .illegalCommand => 4#4
  | .capacityExceeded => 5#4
  | .invalidOperand => 6#4
  | .aborted => 7#4

/-- What a command's rule yields (R112): destination values and flags, or one error. -/
inductive Result where
  | ok (values : List (Reg × Int)) (flags : Flags)
  | err (code : ErrCode)
deriving DecidableEq, Repr

/-- Acceptance of a command word, whatever its bits (R110). -/
def State.accept (s : State maxLimbs) (w : Word) : State maxLimbs :=
  { s with
    cmdLast := w
    status := { s.status with busy := true, done := false, err := false, errcode := 0#4 } }

/-- TAKING AN EXCEPTION: the error completion (R225). It records the code, ERR and DONE and ends BUSY; CMDLAST keeps
the word; no register and no flag is written. Control goes nowhere: there is no vector and no mode. -/
def State.raiseError (s : State maxLimbs) (e : ErrCode) : State maxLimbs :=
  { s with status := { s.status with busy := false, done := true, err := true, errcode := e.code } }

/-- The host's acknowledgement, the only "return" there is (R227): a STATUS write clears DONE and WERR where the
written bits are 1 and nothing else (R30). -/
def State.acknowledge (s : State maxLimbs) (v : Word) : State maxLimbs :=
  { s with
    status := { s.status with
      done := s.status.done && !v.getLsbD 1
      werr := s.status.werr && !v.getLsbD 3 } }

/-- Every destination value written, in one step (R113). -/
def State.writeAll (s : State maxLimbs) (values : List (Reg × Int)) : State maxLimbs :=
  values.foldl (fun t p => t.writeVal p.1 p.2) s

/-- The commit of a successful completion (R112): destinations, the whole of FLAGS (R34), STATUS. -/
def State.commit (s : State maxLimbs) (values : List (Reg × Int)) (flags : Flags) : State maxLimbs :=
  { s.writeAll values with
    flags := flags
    status := { s.status with busy := false, done := true, err := false, errcode := 0#4 } }

/-- Every destination value fits a register (R112, R216). -/
def fits (values : List (Reg × Int)) (maxLimbs : Nat := Config.maxLimbs) : Bool :=
  values.all (fun p => decide (p.2.natAbs ≤ Config.maxMag maxLimbs))

/-- The end of `Complete()` (R112): a result above MAXMAG becomes CAPACITY_EXCEEDED, then commit or error. -/
def State.finish (s : State maxLimbs) : Result → State maxLimbs
  | .ok values flags => if fits values maxLimbs then s.commit values flags else s.raiseError .capacityExceeded
  | .err e => s.raiseError e

/-- ABORT: a command in execution ends as an error completion with code 7; when idle nothing happens (R226). -/
def State.abort (s : State maxLimbs) : State maxLimbs := if s.status.busy then s.raiseError .aborted else s

/-- Soft reset (R251, R42): control state to 0, a command in execution discarded; limbs, `def` flags and SIGN
kept. -/
def State.softReset (s : State maxLimbs) : State maxLimbs :=
  { s with ctrl := ⟨false⟩, status := Status.zero, flags := Flags.zero, cmdLast := 0#32 }

/-- Power-on reset (R250, R42): every piece of state at its power-on value, with new unspecified limb contents. What
is still to happen stays to happen. -/
def State.powerOnReset (s : State maxLimbs) : State maxLimbs :=
  { State.resetAt maxLimbs with agenda := s.agenda, powerOns := s.powerOns + 1 }

/-- The interrupt output, a level and not stored (R41, R221). -/
def State.irq (s : State maxLimbs) : Bool := s.ctrl.ie && s.status.done

end Sys2Proof.Machine
end

