-- ==== Sys2Proof/Machine/Bus.lean ====
section
/-! DEFINITION. The host bus slave port (20_memory.md): address map, reads and writes of every location, busy and
idle, and the answer to each access. -/

namespace Sys2Proof.Machine

variable {maxLimbs : Nat}

/-- What lies at an offset (R63). -/
inductive Location (maxLimbs : Nat := Config.maxLimbs) where
  | id | param | ctrl | status | cmd | flags | sign
  | limb (r : Reg) (i : Fin maxLimbs)
  | reserved
deriving DecidableEq, Repr

/-- A bus address of the CORE's window, as the offset in it; `none` where the access is not for the CORE (R61). -/
def route (addr : Nat) : Option Offset :=
  if Config.coreBase ≤ addr ∧ addr < Config.coreBase + Config.window
  then some (BitVec.ofNat 15 (addr - Config.coreBase)) else none

theorem limbWindow_bound {maxLimbs n : Nat} (h : Config.limbBase ≤ n ∧ n < Config.limbEnd maxLimbs) :
    n - Config.limbBase < Config.limbWindow maxLimbs * Config.nreg := by
  dsimp only [Config.limbBase, Config.limbEnd, Config.limbWindow, Config.nreg] at *; omega

theorem limbWindow_pos {maxLimbs n : Nat} (h : Config.limbBase ≤ n ∧ n < Config.limbEnd maxLimbs) :
    0 < Config.limbWindow maxLimbs := by
  dsimp only [Config.limbBase, Config.limbEnd, Config.limbWindow, Config.nreg] at *; omega

/-- The address map (R63), the limb windows decoded as R65 says, each `4 * MAXLIMBS` bytes (log 7). -/
def locate (off : Offset) (maxLimbs : Nat := Config.maxLimbs) : Location maxLimbs :=
  match off.toNat with
  | 0x000 => .id
  | 0x004 => .param
  | 0x008 => .ctrl
  | 0x00C => .status
  | 0x010 => .cmd
  | 0x014 => .flags
  | 0x018 => .sign
  | n =>
    if h : Config.limbBase ≤ n ∧ n < Config.limbEnd maxLimbs then
      .limb ⟨(n - Config.limbBase) / Config.limbWindow maxLimbs, Nat.div_lt_of_lt_mul (limbWindow_bound h)⟩
        ⟨(n - Config.limbBase) % Config.limbWindow maxLimbs / 4,
          Nat.div_lt_of_lt_mul (Nat.mod_lt _ (limbWindow_pos h))⟩
    else .reserved

/-- The width of an access. -/
def HostOp.width : HostOp → Width
  | .read w => w
  | .write w _ => w

/-- The port takes 32-bit accesses at multiples of 4 (R62). -/
def accessOk (off : Offset) (op : HostOp) : Bool := op.width == .w32 && off.toNat % 4 == 0

/-- CTRL as the host reads it: ABORT, SRST and the reserved bits read 0 (R29). -/
def Ctrl.toWord (c : Ctrl) : Word := BitVec.ofNat 32 c.ie.toNat

/-- STATUS as the host reads it (R30). -/
def Status.toWord (t : Status) : Word :=
  BitVec.ofNat 32 (t.busy.toNat + 2 * t.done.toNat + 4 * t.err.toNat + 8 * t.werr.toNat + 256 * t.errcode.toNat)

/-- A read of a location (R63 to R66, R69): limb and SIGN reads while busy give 0, reserved offsets read 0. A limb
that nothing has written reads as the storage's unspecified bits. -/
def State.readLocation (s : State maxLimbs) : Location maxLimbs → Word
  | .id => Config.idValue
  | .param => Config.paramValue maxLimbs
  | .ctrl => s.ctrl.toWord
  | .status => s.status.toWord
  | .cmd => s.cmdLast
  | .flags => s.flags.toWord
  | .sign => if s.status.busy then 0#32 else s.sign.setWidth 32
  | .limb r i => if s.status.busy then 0#32 else s.limb r i
  | .reserved => 0#32

/-- A refused host write: only WERR (R68). -/
def State.refuseWrite (s : State maxLimbs) : State maxLimbs := { s with status := { s.status with werr := true } }

/-- A write to CTRL (R29): soft reset where bit 2 is 1, and then nothing else (R251, R253); otherwise IE from bit 0
and an abort where bit 1 is 1 (R226). -/
def State.writeCtrl (s : State maxLimbs) (v : Word) : State maxLimbs :=
  if v.getLsbD 2 then s.softReset
  else
    let t := { s with ctrl := ⟨v.getLsbD 0⟩ }
    if v.getLsbD 1 then t.abort else t

/-- A write of a location, busy or idle (R26, R29 to R33, R64, R66 to R68). -/
def State.writeLocation (s : State maxLimbs) (v : Word) : Location maxLimbs → State maxLimbs
  | .id => s
  | .param => s
  | .ctrl => s.writeCtrl v
  | .status => s.acknowledge v
  | .cmd => if s.status.busy then s.refuseWrite else s.accept v
  | .flags => s
  | .sign => if s.status.busy then s.refuseWrite else { s with sign := v.setWidth 8 }
  | .limb r i => if s.status.busy then s.refuseWrite else s.writeLimb r i v
  | .reserved => s

/-- One host access at an offset (R62, R66 to R70): its effect, and the port's answer. A bad width or a misaligned
offset gets a bus error and changes nothing; a read so refused carries data 0. -/
def State.access (s : State maxLimbs) (off : Offset) (op : HostOp) : State maxLimbs :=
  if accessOk off op then
    match op with
    | .read _ => { s with response := some (.readData (s.readLocation (locate off maxLimbs))) }
    | .write _ v => { s.writeLocation v (locate off maxLimbs) with response := some .written }
  else
    match op with
    | .read _ => { s with response := some (.readError 0#32) }
    | .write _ _ => { s with response := some .writeError }

/-- One host access at a bus address: the CORE takes no part in an access outside its window (R61; log 8). -/
def State.busAccess (s : State maxLimbs) (addr : Nat) (op : HostOp) : State maxLimbs :=
  match route addr with
  | some off => s.access off op
  | none => s

end Sys2Proof.Machine
end

