-- ==== Sys2Proof/Machine/Divider.lean ====
section
/-! DEFINITION. bigint_divider: DIVMOD, DIV, MOD (42_divider.md). Euclidean division for every sign (R151). -/

namespace Sys2Proof.Machine

variable {maxLimbs : Nat}

/-- A divider command's result: DIVISION_BY_ZERO for a zero divisor (R211), else `r`. -/
def divResult (b : Int) (r : Result) : Result := if b = 0 then .err .divisionByZero else r

/-- DIVMOD: quotient to D0, remainder to D1, primary value the quotient (R152). Equal destinations are an illegal word
(R97), which `step` never hands to this meaning; it ends them as R214 says (log 14). -/
def execDivmod (d0 d1 s0 s1 : Reg) (s : State maxLimbs) : Host.Outcome (State maxLimbs) Fault Refusal :=
  .next (s.finish
    (if d0 = d1 then .err .illegalCommand
     else divResult (s.val s1)
      (.ok [(d0, s.val s0 / s.val s1), (d1, s.val s0 % s.val s1)] (.ofPrimary (s.val s0 / s.val s1)))))

/-- DIV: quotient only, primary value the quotient (R153). -/
def execDiv (d0 s0 s1 : Reg) (s : State maxLimbs) : Host.Outcome (State maxLimbs) Fault Refusal :=
  .next (s.finish (divResult (s.val s1)
    (.ok [(d0, s.val s0 / s.val s1)] (.ofPrimary (s.val s0 / s.val s1)))))

/-- MOD: remainder only, primary value the remainder (R154). -/
def execMod (d0 s0 s1 : Reg) (s : State maxLimbs) : Host.Outcome (State maxLimbs) Fault Refusal :=
  .next (s.finish (divResult (s.val s1)
    (.ok [(d0, s.val s0 % s.val s1)] (.ofPrimary (s.val s0 % s.val s1)))))

end Sys2Proof.Machine
end

