-- ==== Sys2Proof/Machine/Arith.lean ====
section
/-! DEFINITION. The number-theoretic primitives of the command rules (00_scope.md R12, R13; 45_miller_rabin.md R181;
46_egcd.md R190), exact on mathematical integers. `ediv` and `emod` are Lean's own `/` and `%` on `Int`, which are
Euclidean (R12). Loops carry fuel that always suffices; Laws/Arith.lean proves it. -/

namespace Sys2Proof.Machine

/-- `bitlen(v)`: 0 for 0, otherwise the least `L` with `v < 2^L` (R13). -/
def bitLen (v : Nat) : Nat := if v = 0 then 0 else Nat.log2 v + 1

/-- `b^e mod m` on naturals by square-and-multiply over the bits of `e`, for `e < 2^fuel`, reducing after every
multiplication (R170 leaves the algorithm free; log 15). -/
def powModNat (b m : Nat) : (fuel e : Nat) → Nat
  | 0, _ => 1 % m
  | fuel + 1, e =>
    if e = 0 then 1 % m
    else
      let h := powModNat b m fuel (e / 2)
      if e % 2 = 1 then h * h % m * b % m else h * h % m

/-- `powmod(b, e, m) = emod(b^e, m)` for `e >= 0` and `m >= 1`, with `b^0 = 1` (R13). -/
def powMod (b e m : Int) : Int :=
  powModNat (b % m).toNat m.toNat (bitLen e.toNat) e.toNat

/-- The largest `s` with `2^s` dividing `v`, for `v != 0` with `v < 2^fuel` (R181). -/
def twos : (fuel v : Nat) → Nat
  | 0, _ => 0
  | fuel + 1, v => if v % 2 = 0 ∧ v ≠ 0 then twos fuel (v / 2) + 1 else 0

/-- `s` of R181 for a candidate `n`: the largest integer with `2^s` dividing `n - 1`. -/
def mrS (n : Int) : Nat := twos (bitLen (n - 1).toNat) (n - 1).toNat

/-- `d = (n - 1) / 2^s` of R181. -/
def mrD (n : Int) : Int := (n - 1) / 2 ^ mrS n

/-- PASS of one Miller–Rabin round (R181): `x = 1`, or `powmod(base, d * 2^r, n) = n - 1` for some `r` in
`[0, s - 1]`. -/
def mrPass (n base : Int) : Bool :=
  powMod base (mrD n) n == 1
    || (List.range (mrS n)).any (fun r => powMod base (mrD n * 2 ^ r) n == n - 1)

/-- The loop of EGCD_ALG (R190) on `(r0, r1)`, `(s0, s1)`, `(t0, t1)`, for `r1 < fuel`: `r1` strictly decreases. -/
def egcdLoop : (fuel r0 r1 : Nat) → (s0 s1 t0 t1 : Int) → Nat × Int × Int
  | 0, r0, _, s0, _, t0, _ => (r0, s0, t0)
  | fuel + 1, r0, r1, s0, s1, t0, t1 =>
    if r1 = 0 then (r0, s0, t0)
    else
      egcdLoop fuel r1 (r0 - r0 / r1 * r1) s1 (s0 - (r0 / r1 : Nat) * s1) t1 (t0 - (r0 / r1 : Nat) * t1)

/-- EGCD_ALG, which fixes `(g, x, y)` (R190). -/
def egcdAlg (a b : Int) : Int × Int × Int :=
  let out := egcdLoop (b.natAbs + 1) a.natAbs b.natAbs 1 0 0 1
  (out.1, if a ≥ 0 then out.2.1 else -out.2.1, if b ≥ 0 then out.2.2 else -out.2.2)

end Sys2Proof.Machine
end

