-- ==== Sys2Proof/Machine/Egcd.lean ====
section
/-! DEFINITION. extended_gcd_unit: EGCD, GCD, MODINV (46_egcd.md). -/

namespace Sys2Proof.Machine

variable {maxLimbs : Nat}

/-- EGCD: `(g, x, y)` of EGCD_ALG to D0, D1, D2, primary value `g` (R192). Repeated destinations are an illegal word
(R97), which `step` never hands to this meaning; it ends them as R214 says (log 14). -/
def execEgcd (d0 d1 d2 s0 s1 : Reg) (s : State maxLimbs) : Host.Outcome (State maxLimbs) Fault Refusal :=
  .next (s.finish
    (if d0 = d1 ∨ d0 = d2 ∨ d1 = d2 then .err .illegalCommand
     else
      .ok [(d0, (egcdAlg (s.val s0) (s.val s1)).1), (d1, (egcdAlg (s.val s0) (s.val s1)).2.1),
          (d2, (egcdAlg (s.val s0) (s.val s1)).2.2)]
        (.ofPrimary (egcdAlg (s.val s0) (s.val s1)).1)))

/-- GCD: `B[D0] <- gcd(a, b)`, never negative, primary value the gcd (R194). -/
def execGcd (d0 s0 s1 : Reg) (s : State maxLimbs) : Host.Outcome (State maxLimbs) Fault Refusal :=
  .next (s.finish (.ok [(d0, Int.gcd (s.val s0) (s.val s1))] (.ofPrimary (Int.gcd (s.val s0) (s.val s1)))))

/-- MODINV: `B[D0] <- emod(x, m)` with `x` of EGCD_ALG(a, m); INVALID_MODULUS when `m <= 0`, then NO_INVERSE_EXISTS
when the gcd is not 1 (R195, R223). -/
def execModinv (d0 s0 s1 : Reg) (s : State maxLimbs) : Host.Outcome (State maxLimbs) Fault Refusal :=
  .next (s.finish
    (if s.val s1 ≤ 0 then .err .invalidModulus
     else if (egcdAlg (s.val s0) (s.val s1)).1 ≠ 1 then .err .noInverseExists
     else .ok [(d0, (egcdAlg (s.val s0) (s.val s1)).2.1 % s.val s1)]
      (.ofPrimary ((egcdAlg (s.val s0) (s.val s1)).2.1 % s.val s1))))

end Sys2Proof.Machine
end

