-- ==== Sys2Proof/Machine/MillerRabin.lean ====
section
/-! DEFINITION. miller_rabin_core: MRROUND (45_miller_rabin.md). -/

namespace Sys2Proof.Machine

variable {maxLimbs : Nat}

/-- MRROUND: one round on candidate `n` and base, PASS in FLAGS, no register; INVALID_OPERAND for `n < 5`, `n` even,
or a base outside `[2, n - 2]` (R181). -/
def execMrround (s0 s1 : Reg) (s : State maxLimbs) : Host.Outcome (State maxLimbs) Fault Refusal :=
  .next (s.finish
    (if s.val s0 < 5 ∨ s.val s0 % 2 = 0 then .err .invalidOperand
     else if s.val s1 < 2 ∨ s.val s1 > s.val s0 - 2 then .err .invalidOperand
     else .ok [] (.ofPass (mrPass (s.val s0) (s.val s1)))))

end Sys2Proof.Machine
end

