-- ==== Sys2Proof/Machine/ModExp.lean ====
section
/-! DEFINITION. modexp_engine: MODEXP (44_modexp.md). -/

namespace Sys2Proof.Machine

variable {maxLimbs : Nat}

/-- MODEXP: `B[D0] <- powmod(b, e, m)`; INVALID_MODULUS when `m <= 0`, then INVALID_OPERAND when `e < 0` (R171,
R223). -/
def execModexp (d0 s0 s1 s2 : Reg) (s : State maxLimbs) : Host.Outcome (State maxLimbs) Fault Refusal :=
  .next (s.finish
    (if s.val s2 ≤ 0 then .err .invalidModulus
     else if s.val s1 < 0 then .err .invalidOperand
     else .ok [(d0, powMod (s.val s0) (s.val s1) (s.val s2))]
      (.ofPrimary (powMod (s.val s0) (s.val s1) (s.val s2)))))

end Sys2Proof.Machine
end

