-- ==== Sys2Proof/Machine/ModMul.lean ====
section
/-! DEFINITION. modular_multiplier: MODMUL (43_modular_multiplier.md). -/

namespace Sys2Proof.Machine

variable {maxLimbs : Nat}

/-- MODMUL: `B[D0] <- emod(a * b, m)`, the product exact and not checked against capacity; INVALID_MODULUS when
`m <= 0` (R161). -/
def execModmul (d0 s0 s1 s2 : Reg) (s : State maxLimbs) : Host.Outcome (State maxLimbs) Fault Refusal :=
  .next (s.finish
    (if s.val s2 ≤ 0 then .err .invalidModulus
     else .ok [(d0, s.val s0 * s.val s1 % s.val s2)] (.ofPrimary (s.val s0 * s.val s1 % s.val s2))))

end Sys2Proof.Machine
end

