-- ==== Sys2Proof/Machine/Multiplier.lean ====
section
/-! DEFINITION. bigint_multiplier: MUL (41_multiplier.md). The exact product; the algorithm is not visible (R140). -/

namespace Sys2Proof.Machine

variable {maxLimbs : Nat}

/-- MUL: `B[D0] <- a * b`, primary value the product (R141). -/
def execMul (d0 s0 s1 : Reg) (s : State maxLimbs) : Host.Outcome (State maxLimbs) Fault Refusal :=
  .next (s.finish (.ok [(d0, s.val s0 * s.val s1)] (.ofPrimary (s.val s0 * s.val s1))))

end Sys2Proof.Machine
end

