-- ==== Sys2Proof/Machine/Support.lean ====
section
/-! DEFINITION. The support operations LDI, MOV, ADD, SUB, CMP, TST, BITLEN (40_support.md). -/

namespace Sys2Proof.Machine

variable {maxLimbs : Nat}

/-- LDI: `B[D0] <- zext_12(imm)`, primary value the immediate (R121). -/
def execLdi (d0 : Reg) (imm : BitVec 12) (s : State maxLimbs) : Host.Outcome (State maxLimbs) Fault Refusal :=
  .next (s.finish (.ok [(d0, imm.toNat)] (.ofPrimary imm.toNat)))

/-- MOV: `B[D0] <- a`, primary value `a` (R122). -/
def execMov (d0 s0 : Reg) (s : State maxLimbs) : Host.Outcome (State maxLimbs) Fault Refusal :=
  .next (s.finish (.ok [(d0, s.val s0)] (.ofPrimary (s.val s0))))

/-- ADD: `B[D0] <- a + b`, primary value the sum (R123). -/
def execAdd (d0 s0 s1 : Reg) (s : State maxLimbs) : Host.Outcome (State maxLimbs) Fault Refusal :=
  .next (s.finish (.ok [(d0, s.val s0 + s.val s1)] (.ofPrimary (s.val s0 + s.val s1))))

/-- SUB: `B[D0] <- a - b`, primary value the difference (R124). -/
def execSub (d0 s0 s1 : Reg) (s : State maxLimbs) : Host.Outcome (State maxLimbs) Fault Refusal :=
  .next (s.finish (.ok [(d0, s.val s0 - s.val s1)] (.ofPrimary (s.val s0 - s.val s1))))

/-- CMP: LT, EQ, GT of the two values, no register (R128). -/
def execCmp (s0 s1 : Reg) (s : State maxLimbs) : Host.Outcome (State maxLimbs) Fault Refusal :=
  .next (s.finish (.ok [] (.ofCompare (s.val s0) (s.val s1))))

/-- TST: primary value `a`, no register (R129). -/
def execTst (s0 : Reg) (s : State maxLimbs) : Host.Outcome (State maxLimbs) Fault Refusal :=
  .next (s.finish (.ok [] (.ofPrimary (s.val s0))))

/-- BITLEN: `B[D0] <- bitlen(|a|)`, primary value the bit length (R130). -/
def execBitlen (d0 s0 : Reg) (s : State maxLimbs) : Host.Outcome (State maxLimbs) Fault Refusal :=
  .next (s.finish (.ok [(d0, bitLen (s.val s0).natAbs)] (.ofPrimary (bitLen (s.val s0).natAbs))))

end Sys2Proof.Machine
end

