-- ==== Sys2Proof/Machine/Dispatch.lean ====
section
/-! DEFINITION. The completion of a decoded command: one arm per command, one meaning per arm. -/

namespace Sys2Proof.Machine

def exec (i : Instr) (s : State) : Host.Outcome State Fault Refusal :=
  match i with
  -- 40_support.md
  | .ldi d0 imm => Sys2Proof.Machine.execLdi d0 imm s
  | .mov d0 s0 => Sys2Proof.Machine.execMov d0 s0 s
  | .add d0 s0 s1 => Sys2Proof.Machine.execAdd d0 s0 s1 s
  | .sub d0 s0 s1 => Sys2Proof.Machine.execSub d0 s0 s1 s
  | .cmp s0 s1 => Sys2Proof.Machine.execCmp s0 s1 s
  | .tst s0 => Sys2Proof.Machine.execTst s0 s
  | .bitlen d0 s0 => Sys2Proof.Machine.execBitlen d0 s0 s
  -- 41_multiplier.md
  | .mul d0 s0 s1 => Sys2Proof.Machine.execMul d0 s0 s1 s
  -- 42_divider.md
  | .divmod d0 d1 s0 s1 => Sys2Proof.Machine.execDivmod d0 d1 s0 s1 s
  | .div d0 s0 s1 => Sys2Proof.Machine.execDiv d0 s0 s1 s
  | .mod d0 s0 s1 => Sys2Proof.Machine.execMod d0 s0 s1 s
  -- 43_modular_multiplier.md
  | .modmul d0 s0 s1 s2 => Sys2Proof.Machine.execModmul d0 s0 s1 s2 s
  -- 44_modexp.md
  | .modexp d0 s0 s1 s2 => Sys2Proof.Machine.execModexp d0 s0 s1 s2 s
  -- 45_miller_rabin.md
  | .mrround s0 s1 => Sys2Proof.Machine.execMrround s0 s1 s
  -- 46_egcd.md
  | .egcd d0 d1 d2 s0 s1 => Sys2Proof.Machine.execEgcd d0 d1 d2 s0 s1 s
  | .gcd d0 s0 s1 => Sys2Proof.Machine.execGcd d0 s0 s1 s
  | .modinv d0 s0 s1 => Sys2Proof.Machine.execModinv d0 s0 s1 s

end Sys2Proof.Machine
end

