-- ==== Sys2Proof/Machine/Sequencer.lean ====
section
/-! DEFINITION. The sequencer's completion step (30_encoding.md R112), the effect of each event, and the model fault
of 10_state.md R40 beside the machine. -/

namespace Sys2Proof.Machine

variable {maxLimbs : Nat}

/-- The dispatch of Dispatch.lean at any capacity: `exec` where `MAXLIMBS` is an argument (R8; log 7). It calls the same
meanings; Laws/Step.lean, `execAt_eq_exec`, says that it is `exec` on this hardware. -/
def execAt (i : Instr) (s : State maxLimbs) : Host.Outcome (State maxLimbs) Fault Refusal :=
  match i with
  | .ldi d0 imm => execLdi d0 imm s
  | .mov d0 s0 => execMov d0 s0 s
  | .add d0 s0 s1 => execAdd d0 s0 s1 s
  | .sub d0 s0 s1 => execSub d0 s0 s1 s
  | .cmp s0 s1 => execCmp s0 s1 s
  | .tst s0 => execTst s0 s
  | .bitlen d0 s0 => execBitlen d0 s0 s
  | .mul d0 s0 s1 => execMul d0 s0 s1 s
  | .divmod d0 d1 s0 s1 => execDivmod d0 d1 s0 s1 s
  | .div d0 s0 s1 => execDiv d0 s0 s1 s
  | .mod d0 s0 s1 => execMod d0 s0 s1 s
  | .modmul d0 s0 s1 s2 => execModmul d0 s0 s1 s2 s
  | .modexp d0 s0 s1 s2 => execModexp d0 s0 s1 s2 s
  | .mrround s0 s1 => execMrround s0 s1 s
  | .egcd d0 d1 d2 s0 s1 => execEgcd d0 d1 d2 s0 s1 s
  | .gcd d0 s0 s1 => execGcd d0 s0 s1 s
  | .modinv d0 s0 s1 => execModinv d0 s0 s1 s

/-- What runs a decoded command: `exec` on this hardware, `execAt` at any capacity. -/
abbrev Runner (maxLimbs : Nat) := Instr → State maxLimbs → Host.Outcome (State maxLimbs) Fault Refusal

/-- The command in execution, from CMDLAST: what a fetch is on this hardware (R25, R39, R81). -/
def State.currentCommand (s : State maxLimbs) : Except Illegal Instr := decode s.cmdLast

/-- `Complete()` (R112): a legal word runs its command, an illegal one ends with ILLEGAL_COMMAND and no operand is
read (R100, R214). -/
def completeCommand (run : Runner maxLimbs) (s : State maxLimbs) : Host.Outcome (State maxLimbs) Fault Refusal :=
  match s.currentCommand with
  | .ok i => run i s
  | .error _ => .next (s.raiseError .illegalCommand)

/-- The sequencer's turn: the completion, enabled exactly when BUSY = 1 (R18, R112); otherwise nothing. -/
def sequencerTurn (run : Runner maxLimbs) (s : State maxLimbs) : Host.Outcome (State maxLimbs) Fault Refusal :=
  if s.status.busy then completeCommand run s else .next s

/-- The effect of one event. -/
def applyEvent (run : Runner maxLimbs) (e : Event) (s : State maxLimbs) :
    Host.Outcome (State maxLimbs) Fault Refusal :=
  match e with
  | .port off op => .next (s.access off op)
  | .bus addr op => .next (s.busAccess addr op)
  | .complete => sequencerTurn run s
  | .powerOn => .next s.powerOnReset

/-- What happens next: the head of the agenda, and the sequencer's turn when the host makes no more accesses (R263:
completion is always enabled while busy; log 3). -/
def nextEvent (s : State maxLimbs) : Event := s.agenda.headD .complete

/-- A read at offset `off` that shows a limb nothing has written (R40, R62, R69). -/
def readsUndefinedLimb (s : State maxLimbs) (off : Offset) (op : HostOp) : Bool :=
  match op, locate off maxLimbs with
  | .read _, .limb r i => accessOk off op && !s.status.busy && !s.regs[r].defd.getLsbD i
  | _, _ => false

/-- The next step uses limb storage that nothing has written: a completion reads a source register with an undefined
limb, or the host reads an undefined limb (R40). -/
def usesUndefinedLimb (s : State maxLimbs) : Bool :=
  match nextEvent s with
  | .port off op => readsUndefinedLimb s off op
  | .bus addr op =>
    match route addr with
    | some off => readsUndefinedLimb s off op
    | none => false
  | .complete =>
    s.status.busy &&
      match s.currentCommand with
      | .ok i => i.sources.any (fun r => !s.regs[r].allDefined)
      | .error _ => false
  | .powerOn => false

end Sys2Proof.Machine
end

