-- ==== Sys2Proof/Machine/Step.lean ====
section
/-! DEFINITION. One step of the machine: the next event of the agenda takes place (20_memory.md R77). -/

namespace Sys2Proof.Machine

/-- One atomic step of the one total order of steps (R77). -/
def step (s : State) : Host.Outcome State Fault Refusal :=
  applyEvent exec (nextEvent s) { s with agenda := s.agenda.tail }

/-- The same step of a CORE whose big registers have `maxLimbs` limbs (R8, D4, 93 U14; log 7). Laws/Step.lean,
`stepAt_eq_step`, says that it is `step` on this hardware. -/
def stepAt {maxLimbs : Nat} (s : State maxLimbs) : Host.Outcome (State maxLimbs) Fault Refusal :=
  applyEvent execAt (nextEvent s) { s with agenda := s.agenda.tail }

/-- The step with the model fault that R40 asks for: it stops where a limb nothing has written would be used, and is
`step` otherwise (log 2). -/
def guardedStep (s : State) : Host.Outcome State Fault Refusal :=
  if usesUndefinedLimb s then .fault .undefinedLimb else step s

/-- The command word `w` accepted (R110) and the sequencer's turn next, so that the next step completes exactly that
command (log 5). A command is 32 bits (R90). -/
def State.withFetchWord (s : State) (nbits w : Nat) : State :=
  let t := s.accept (BitVec.ofNat 32 (w % 2 ^ nbits))
  { t with agenda := .complete :: t.agenda }

end Sys2Proof.Machine
end

