-- ==== Sys2Proof/Safety.lean ====
section
/-! DEFINITION. The terms claims are made in: what a completion leaves (success and error), what an event must not
touch, the invariant of every step, and a safe step. -/

namespace Sys2Proof.Machine

variable {maxLimbs : Nat}

/-- Z, N and ODD come from the primary value `p`, and LT, EQ, GT and PASS are 0 (10_state.md R35). -/
structure Flags.IsPrimary (f : Flags) (p : Int) : Prop where
  z : f.z = true ↔ p = 0
  n : f.n = true ↔ p < 0
  odd : f.odd = true ↔ p % 2 = 1
  others : f.lt = false ∧ f.eq = false ∧ f.gt = false ∧ f.pass = false

/-- What no command and no access to the limbs, SIGN or STATUS touches besides: CTRL, CMDLAST, and the model's own
fields. -/
structure SameRest (s t : State maxLimbs) : Prop where
  ctrl : t.ctrl = s.ctrl
  cmdLast : t.cmdLast = s.cmdLast
  agenda : t.agenda = s.agenda
  response : t.response = s.response
  powerOns : t.powerOns = s.powerOns

/-- `t` is `s` after a successful completion that writes `values`: each destination holds its value in canonical form,
every limb of it written and defined (R23, R40); every other register is as it was, limbs, `def` flags and sign
(R113); STATUS reports success and keeps WERR (R112). FLAGS are said separately. -/
structure Completed (s t : State maxLimbs) (values : List (Reg × Int)) : Prop where
  value : ∀ p ∈ values, t.val p.1 = p.2
  limbs : ∀ p ∈ values, ∀ i < maxLimbs, t.limb p.1 i = BitVec.ofNat 32 (p.2.natAbs / 2 ^ (32 * i))
  sign : ∀ p ∈ values, (t.sgn p.1 = true ↔ p.2 < 0)
  defined : ∀ p ∈ values, t.regs[p.1].allDefined = true
  others : ∀ r : Reg, r ∉ values.map Prod.fst →
    t.regs[r] = s.regs[r] ∧ t.sgn r = s.sgn r ∧ t.val r = s.val r
  status : t.status = ⟨false, true, false, s.status.werr, 0#4⟩
  rest : SameRest s t

/-- `t` is `s` after an error completion with code `c`: STATUS reports it and keeps WERR; no register, no sign bit, no
flag, nothing else is written (60_exceptions.md R225). -/
structure ErrorCompleted (s t : State maxLimbs) (c : Nat) : Prop where
  status : t.status = ⟨false, true, true, s.status.werr, BitVec.ofNat 4 c⟩
  regs : t.regs = s.regs
  sign : t.sign = s.sign
  flags : t.flags = s.flags
  rest : SameRest s t

/-- The encoding of a format-R command (30_encoding.md R91, R94, R103), with the one error every command has: the word
carries the opcode `op`, each field of `fields` holds its register number, every other field is 0; and a word of that
opcode that fails `Legal` (R101) ends with ILLEGAL_COMMAND when it completes (R100). -/
structure Encoded (i : Instr) (op : BitVec 8) (fields : List (Field × Reg)) : Prop where
  opcode : opcodeOf (encode i) = op
  used : ∀ p ∈ fields, field (encode i) p.1 = BitVec.ofNat 4 p.2.val
  unused : ∀ f : Field, f ∉ fields.map Prod.fst → field (encode i) f = 0#4
  illegal : ∀ s : State, s.status.busy = true → nextEvent s = .complete → opcodeOf s.cmdLast = op →
    legal s.cmdLast = false → ∃ t, step s = .next t ∧ ErrorCompleted { s with agenda := s.agenda.tail } t 4

/-- The big registers, SIGN and FLAGS are as they were. -/
structure SameData (s t : State maxLimbs) : Prop where
  regs : t.regs = s.regs
  sign : t.sign = s.sign
  flags : t.flags = s.flags

/-- FLAGS holds what some command can leave: the flags of a primary value (R35), of a comparison (R36), or of a
Miller–Rabin round (R37); reset leaves zero, which is one of the last kind. -/
def Flags.legal (f : Flags) : Bool :=
  (!f.lt && !f.eq && !f.gt && !f.pass && !(f.z && f.n) && !(f.z && f.odd))
    || (!f.z && !f.n && !f.odd && !f.pass
        && ((f.lt && !f.eq && !f.gt) || (!f.lt && f.eq && !f.gt) || (!f.lt && !f.eq && f.gt)))
    || (!f.z && !f.n && !f.odd && !f.lt && !f.eq && !f.gt)

/-- The invariant of the machine: the limb storage is in canonical form; ERR is 1 exactly when ERRCODE is not 0 (R30);
codes 8 to 15 do not occur (R218); while BUSY = 1, DONE and ERR are 0 (R110); FLAGS is legal. -/
structure State.Inv (s : State maxLimbs) : Prop where
  wf : s.regs.wf = true
  errIff : s.status.err = true ↔ s.status.errcode ≠ 0#4
  code : s.status.errcode.toNat ≤ 7
  busy : s.status.busy = true → s.status.done = false ∧ s.status.err = false
  flags : s.flags.legal = true

/-- A step that R40 does not stop: it uses no limb that nothing has written. -/
def State.SafeStep (s : State maxLimbs) : Prop := usesUndefinedLimb s = false

/-- The error codes a command's own rule can raise, besides ILLEGAL_COMMAND and ABORTED (60_exceptions.md R220). -/
def allowedErrors : Instr → List ErrCode
  | .ldi _ _ => []
  | .mov _ _ => []
  | .add _ _ _ => [.capacityExceeded]
  | .sub _ _ _ => [.capacityExceeded]
  | .cmp _ _ => []
  | .tst _ => []
  | .bitlen _ _ => []
  | .mul _ _ _ => [.capacityExceeded]
  | .divmod _ _ _ _ => [.divisionByZero]
  | .div _ _ _ => [.divisionByZero]
  | .mod _ _ _ => [.divisionByZero]
  | .modmul _ _ _ _ => [.invalidModulus]
  | .modexp _ _ _ _ => [.invalidModulus, .invalidOperand]
  | .mrround _ _ => [.invalidOperand]
  | .egcd _ _ _ _ _ => []
  | .gcd _ _ _ => []
  | .modinv _ _ _ => [.invalidModulus, .noInverseExists]

/-- The loop of EGCD_ALG as R190 writes it, as a relation: from `(r0, r1, s0, s1, t0, t1)` it ends with `g`, `s`,
`t`. -/
inductive EuclidRun : Int → Int → Int → Int → Int → Int → Int → Int → Int → Prop where
  | stop (r0 s0 s1 t0 t1 : Int) : EuclidRun r0 0 s0 s1 t0 t1 r0 s0 t0
  | turn (r0 r1 s0 s1 t0 t1 g x y : Int) (h : r1 ≠ 0)
      (rest : EuclidRun r1 (r0 - r0 / r1 * r1) s1 (s0 - r0 / r1 * s1) t1 (t0 - r0 / r1 * t1) g x y) :
      EuclidRun r0 r1 s0 s1 t0 t1 g x y

/-- The iterative form of a Miller–Rabin round that R182 gives: up to `k` more squarings of `x` modulo `n`, looking
for `n - 1`. -/
def mrSquarings (n : Int) : (k : Nat) → (x : Int) → Bool
  | 0, _ => false
  | k + 1, x => if x * x % n = n - 1 then true else mrSquarings n k (x * x % n)

/-- R182 from `x = base^d mod n`. -/
def mrIterative (n base : Int) (s : Nat) (d : Int) : Bool :=
  let x := base ^ d.toNat % n
  if x = 1 ∨ x = n - 1 then true else mrSquarings n (s - 1) x

end Sys2Proof.Machine
end

