-- ==== Sys2Proof/Certificates/Slice0/Obligations.lean ====
section
/-! DEFINITION. The statements for the provers. Each docstring names the rule it formalises; what rests on the model's
own choice names its log entry. -/

open Sys2Proof Sys2Proof.Machine

/-! ### Encoding -/

/-- The example words of the command rules (R121 to R130, R141, R152 to R154, R161, R171, R181, R192, R194, R195) and
illegal words of 95_test_vectors.md 2.1 decode as the spec says. -/
def Obligations.ExampleWordsDecode : Prop :=
  decode 0x02A00101#32 = .ok (.ldi 1 42#12) ∧ decode 0x00100202#32 = .ok (.mov 2 1) ∧
  decode 0x02100303#32 = .ok (.add 3 1 2) ∧ decode 0x02100304#32 = .ok (.sub 3 1 2) ∧
  decode 0x02100005#32 = .ok (.cmp 1 2) ∧ decode 0x00100006#32 = .ok (.tst 1) ∧
  decode 0x00100407#32 = .ok (.bitlen 4 1) ∧ decode 0x01000210#32 = .ok (.mul 2 0 1) ∧
  decode 0x01003218#32 = .ok (.divmod 2 3 0 1) ∧ decode 0x01000219#32 = .ok (.div 2 0 1) ∧
  decode 0x0100021A#32 = .ok (.mod 2 0 1) ∧ decode 0x21000320#32 = .ok (.modmul 3 0 1 2) ∧
  decode 0x21000328#32 = .ok (.modexp 3 0 1 2) ∧ decode 0x01000030#32 = .ok (.mrround 0 1) ∧
  decode 0x01043238#32 = .ok (.egcd 2 3 4 0 1) ∧ decode 0x01000239#32 = .ok (.gcd 2 0 1) ∧
  decode 0x0100023A#32 = .ok (.modinv 2 0 1) ∧
  decode 0x00000000#32 = .error .reservedOpcode ∧ decode 0x02A01101#32 = .error .unusedField ∧
  decode 0x00900202#32 = .error .registerField ∧ decode 0x01002218#32 = .error .repeatedDestination ∧
  decode 0x01023238#32 = .error .repeatedDestination

/-- R103: the encoded word of every well-formed command decodes to that command. -/
def Obligations.DecodeEncodeAgree : Prop :=
  ∀ i : Instr, i.wellFormed = true → decode (encode i) = .ok i

/-- R99, R103: a word that decodes is the encoding of the command it decodes to, bit for bit, and that command is
well formed. -/
def Obligations.EncodeDecodeAgree : Prop :=
  ∀ (w : Word) (i : Instr), decode w = .ok i → encode i = w ∧ i.wellFormed = true

/-- R101, R98: the decoder accepts exactly the words that `Legal` accepts, and none with one of the 239 reserved
opcodes. -/
def Obligations.DecodeAcceptsExactlyLegalWords : Prop :=
  (∀ w : Word, legal w = true ↔ ∃ i, decode w = .ok i) ∧
  ∀ w : Word,
    (opcodeOf w).toNat ∉ [0x01, 0x02, 0x03, 0x04, 0x05, 0x06, 0x07, 0x10, 0x18, 0x19, 0x1A, 0x20, 0x28, 0x30, 0x38,
      0x39, 0x3A] →
    decode w = .error .reservedOpcode ∧ legal w = false

/-- spec/opcode_table.json: a decoded word matches its row's mask and match; a word that matches a row decodes to a
command of that mnemonic, or repeats a destination (R97). -/
def Obligations.OpcodeTableAgreesWithDecode : Prop :=
  (∀ (w : Word) (i : Instr), decode w = .ok i →
    ∃ row ∈ opcodeTable, row.mnemonic = mnemonic i ∧ w &&& row.mask = row.matchBits) ∧
  (∀ (w : Word) (row : OpcodeRow), row ∈ opcodeTable → w &&& row.mask = row.matchBits →
    (∃ i, decode w = .ok i ∧ mnemonic i = row.mnemonic) ∨ decode w = .error .repeatedDestination)

/-! ### The commands -/

/-- R121. -/
def Obligations.LdiLoadsTheImmediate : Prop :=
  ∀ (s : State) (d0 : Reg) (imm : BitVec 12),
    (opcodeOf (encode (.ldi d0 imm)) = 0x01#8 ∧ field (encode (.ldi d0 imm)) .D0 = BitVec.ofNat 4 d0.val ∧
      (encode (.ldi d0 imm)).extractLsb' 12 8 = 0#8 ∧ (encode (.ldi d0 imm)).extractLsb' 20 12 = imm) ∧
    (∀ u : State, u.status.busy = true → nextEvent u = .complete → opcodeOf u.cmdLast = 0x01#8 →
      (u.cmdLast.getLsbD 11 = true ∨ u.cmdLast.extractLsb' 12 8 ≠ 0#8) →
      ∃ t, step u = .next t ∧ ErrorCompleted { u with agenda := u.agenda.tail } t 4) ∧
    ∃ t, exec (.ldi d0 imm) s = .next t ∧ Completed s t [(d0, (imm.toNat : Int))] ∧ t.flags.IsPrimary imm.toNat

/-- R122, a source holding negative zero included: the destination's sign bit is 1 only for a negative value. -/
def Obligations.MovCopiesTheValue : Prop :=
  ∀ (s : State) (d0 s0 : Reg),
    Encoded (.mov d0 s0) 0x02#8 [(.D0, d0), (.S0, s0)] ∧
    ∃ t, exec (.mov d0 s0) s = .next t ∧ Completed s t [(d0, s.val s0)] ∧ t.flags.IsPrimary (s.val s0)

/-- R123: the exact sum, or CAPACITY_EXCEEDED. -/
def Obligations.AddIsExactOrExceedsCapacity : Prop :=
  ∀ (s : State) (d0 s0 s1 : Reg),
    Encoded (.add d0 s0 s1) 0x03#8 [(.D0, d0), (.S0, s0), (.S1, s1)] ∧
    ((s.val s0 + s.val s1).natAbs ≤ Config.maxMag →
      ∃ t, exec (.add d0 s0 s1) s = .next t ∧ Completed s t [(d0, s.val s0 + s.val s1)] ∧
        t.flags.IsPrimary (s.val s0 + s.val s1)) ∧
    (Config.maxMag < (s.val s0 + s.val s1).natAbs →
      ∃ t, exec (.add d0 s0 s1) s = .next t ∧ ErrorCompleted s t 5)

/-- R124: the exact difference, or CAPACITY_EXCEEDED. -/
def Obligations.SubIsExactOrExceedsCapacity : Prop :=
  ∀ (s : State) (d0 s0 s1 : Reg),
    Encoded (.sub d0 s0 s1) 0x04#8 [(.D0, d0), (.S0, s0), (.S1, s1)] ∧
    ((s.val s0 - s.val s1).natAbs ≤ Config.maxMag →
      ∃ t, exec (.sub d0 s0 s1) s = .next t ∧ Completed s t [(d0, s.val s0 - s.val s1)] ∧
        t.flags.IsPrimary (s.val s0 - s.val s1)) ∧
    (Config.maxMag < (s.val s0 - s.val s1).natAbs →
      ∃ t, exec (.sub d0 s0 s1) s = .next t ∧ ErrorCompleted s t 5)

/-- R128, R36: exactly one of LT, EQ, GT, by signed comparison; no register written. -/
def Obligations.CmpComparesSignedValues : Prop :=
  ∀ (s : State) (s0 s1 : Reg),
    Encoded (.cmp s0 s1) 0x05#8 [(.S0, s0), (.S1, s1)] ∧
    ∃ t, exec (.cmp s0 s1) s = .next t ∧ Completed s t [] ∧
      (t.flags.lt = true ↔ s.val s0 < s.val s1) ∧ (t.flags.eq = true ↔ s.val s0 = s.val s1) ∧
      (t.flags.gt = true ↔ s.val s1 < s.val s0) ∧
      t.flags.z = false ∧ t.flags.n = false ∧ t.flags.odd = false ∧ t.flags.pass = false

/-- R129: flags of the value; no register written. -/
def Obligations.TstTestsTheValue : Prop :=
  ∀ (s : State) (s0 : Reg),
    Encoded (.tst s0) 0x06#8 [(.S0, s0)] ∧
    ∃ t, exec (.tst s0) s = .next t ∧ Completed s t [] ∧ t.flags.IsPrimary (s.val s0)

/-- R130, R13: the least `L` with `|a| < 2^L`. -/
def Obligations.BitlenIsTheLeastLength : Prop :=
  ∀ (s : State) (d0 s0 : Reg),
    Encoded (.bitlen d0 s0) 0x07#8 [(.D0, d0), (.S0, s0)] ∧
    ∃ (t : State) (len : Nat), exec (.bitlen d0 s0) s = .next t ∧ Completed s t [(d0, (len : Int))] ∧
      t.flags.IsPrimary len ∧ len ≤ 16384 ∧ ∀ k : Nat, (s.val s0).natAbs < 2 ^ k ↔ len ≤ k

/-- R141: the exact product, or CAPACITY_EXCEEDED. -/
def Obligations.MulIsExactOrExceedsCapacity : Prop :=
  ∀ (s : State) (d0 s0 s1 : Reg),
    Encoded (.mul d0 s0 s1) 0x10#8 [(.D0, d0), (.S0, s0), (.S1, s1)] ∧
    ((s.val s0).natAbs * (s.val s1).natAbs ≤ Config.maxMag →
      ∃ t, exec (.mul d0 s0 s1) s = .next t ∧ Completed s t [(d0, s.val s0 * s.val s1)] ∧
        t.flags.IsPrimary (s.val s0 * s.val s1)) ∧
    (Config.maxMag < (s.val s0).natAbs * (s.val s1).natAbs →
      ∃ t, exec (.mul d0 s0 s1) s = .next t ∧ ErrorCompleted s t 5)

/-- R152, R151, R155: the Euclidean quotient and remainder for every sign, never above capacity; DIVISION_BY_ZERO for a
zero divisor. Equal destinations end as the illegal word they are (R97; log 14). -/
def Obligations.DivmodIsEuclidean : Prop :=
  ∀ (s : State) (d0 d1 s0 s1 : Reg),
    Encoded (.divmod d0 d1 s0 s1) 0x18#8 [(.D0, d0), (.D1, d1), (.S0, s0), (.S1, s1)] ∧
    (d0 ≠ d1 → s.val s1 ≠ 0 →
      ∃ (t : State) (q r : Int), exec (.divmod d0 d1 s0 s1) s = .next t ∧
        s.val s0 = q * s.val s1 + r ∧ 0 ≤ r ∧ r < (s.val s1).natAbs ∧
        Completed s t [(d0, q), (d1, r)] ∧ t.flags.IsPrimary q) ∧
    (d0 ≠ d1 → s.val s1 = 0 → ∃ t, exec (.divmod d0 d1 s0 s1) s = .next t ∧ ErrorCompleted s t 1) ∧
    (d0 = d1 → ∃ t, exec (.divmod d0 d1 s0 s1) s = .next t ∧ ErrorCompleted s t 4)

/-- R153, R151: the quotient of R151, or DIVISION_BY_ZERO. -/
def Obligations.DivIsTheEuclideanQuotient : Prop :=
  ∀ (s : State) (d0 s0 s1 : Reg),
    Encoded (.div d0 s0 s1) 0x19#8 [(.D0, d0), (.S0, s0), (.S1, s1)] ∧
    (s.val s1 ≠ 0 →
      ∃ (t : State) (q r : Int), exec (.div d0 s0 s1) s = .next t ∧
        s.val s0 = q * s.val s1 + r ∧ 0 ≤ r ∧ r < (s.val s1).natAbs ∧
        Completed s t [(d0, q)] ∧ t.flags.IsPrimary q) ∧
    (s.val s1 = 0 → ∃ t, exec (.div d0 s0 s1) s = .next t ∧ ErrorCompleted s t 1)

/-- R154, R151: the remainder of R151, the same for the negated divisor, Z exactly when the divisor divides; or
DIVISION_BY_ZERO. -/
def Obligations.ModIsTheEuclideanRemainder : Prop :=
  ∀ (s : State) (d0 s0 s1 : Reg),
    Encoded (.mod d0 s0 s1) 0x1A#8 [(.D0, d0), (.S0, s0), (.S1, s1)] ∧
    (s.val s1 ≠ 0 →
      ∃ (t : State) (q r : Int), exec (.mod d0 s0 s1) s = .next t ∧
        s.val s0 = q * s.val s1 + r ∧ 0 ≤ r ∧ r < (s.val s1).natAbs ∧
        Completed s t [(d0, r)] ∧ t.flags.IsPrimary r ∧ t.flags.n = false ∧
        (t.flags.z = true ↔ s.val s1 ∣ s.val s0)) ∧
    (s.val s1 = 0 → ∃ t, exec (.mod d0 s0 s1) s = .next t ∧ ErrorCompleted s t 1)

/-- R161: `emod(a * b, m)` with no capacity check on the product; INVALID_MODULUS for `m <= 0`. -/
def Obligations.ModmulReducesTheProduct : Prop :=
  ∀ (s : State) (d0 s0 s1 s2 : Reg),
    Encoded (.modmul d0 s0 s1 s2) 0x20#8 [(.D0, d0), (.S0, s0), (.S1, s1), (.S2, s2)] ∧
    (0 < s.val s2 →
      ∃ (t : State) (r : Int), exec (.modmul d0 s0 s1 s2) s = .next t ∧
        0 ≤ r ∧ r < s.val s2 ∧ s.val s2 ∣ s.val s0 * s.val s1 - r ∧
        Completed s t [(d0, r)] ∧ t.flags.IsPrimary r ∧ t.flags.n = false) ∧
    (s.val s2 ≤ 0 → ∃ t, exec (.modmul d0 s0 s1 s2) s = .next t ∧ ErrorCompleted s t 2)

/-- R171, R223: `emod(b^e, m)`; INVALID_MODULUS before INVALID_OPERAND. -/
def Obligations.ModexpIsThePowerModulo : Prop :=
  ∀ (s : State) (d0 s0 s1 s2 : Reg),
    Encoded (.modexp d0 s0 s1 s2) 0x28#8 [(.D0, d0), (.S0, s0), (.S1, s1), (.S2, s2)] ∧
    (0 < s.val s2 → 0 ≤ s.val s1 →
      ∃ (t : State) (r : Int), exec (.modexp d0 s0 s1 s2) s = .next t ∧
        r = s.val s0 ^ (s.val s1).toNat % s.val s2 ∧
        Completed s t [(d0, r)] ∧ t.flags.IsPrimary r ∧ t.flags.n = false) ∧
    (0 < s.val s2 → s.val s1 < 0 →
      ∃ t, exec (.modexp d0 s0 s1 s2) s = .next t ∧ ErrorCompleted s t 6) ∧
    (s.val s2 ≤ 0 → ∃ t, exec (.modexp d0 s0 s1 s2) s = .next t ∧ ErrorCompleted s t 2)

/-- R181: PASS of one round, with `n - 1 = 2^k * d`, `d` odd; INVALID_OPERAND outside the domain. -/
def Obligations.MrroundRunsOneRound : Prop :=
  ∀ (s : State) (s0 s1 : Reg),
    Encoded (.mrround s0 s1) 0x30#8 [(.S0, s0), (.S1, s1)] ∧
    (5 ≤ s.val s0 → s.val s0 % 2 = 1 → 2 ≤ s.val s1 → s.val s1 ≤ s.val s0 - 2 →
      ∃ (t : State) (k d : Nat), exec (.mrround s0 s1) s = .next t ∧
        s.val s0 - 1 = 2 ^ k * d ∧ d % 2 = 1 ∧ 1 ≤ k ∧ Completed s t [] ∧
        (t.flags.pass = true ↔
          s.val s1 ^ d % s.val s0 = 1 ∨ ∃ r < k, s.val s1 ^ (d * 2 ^ r) % s.val s0 = s.val s0 - 1) ∧
        t.flags.z = false ∧ t.flags.n = false ∧ t.flags.odd = false ∧
        t.flags.lt = false ∧ t.flags.eq = false ∧ t.flags.gt = false) ∧
    (s.val s0 < 5 ∨ s.val s0 % 2 = 0 ∨ s.val s1 < 2 ∨ s.val s0 - 2 < s.val s1 →
      ∃ t, exec (.mrround s0 s1) s = .next t ∧ ErrorCompleted s t 6)

/-- R192, R190: the `(g, x, y)` of the extended Euclidean algorithm as R190 writes it, with `g = gcd(a, b)` and
`a*x + b*y = g`, and no other error than the illegal word of repeated destinations (R97; log 14). -/
def Obligations.EgcdFollowsTheAlgorithm : Prop :=
  ∀ (s : State) (d0 d1 d2 s0 s1 : Reg),
    Encoded (.egcd d0 d1 d2 s0 s1) 0x38#8 [(.D0, d0), (.D1, d1), (.D2, d2), (.S0, s0), (.S1, s1)] ∧
    ([d0, d1, d2].Nodup →
      ∃ (t : State) (g x y : Int), exec (.egcd d0 d1 d2 s0 s1) s = .next t ∧
        EuclidRun (s.val s0).natAbs (s.val s1).natAbs 1 0 0 1 g x y ∧
        Completed s t
          [(d0, g), (d1, if 0 ≤ s.val s0 then x else -x), (d2, if 0 ≤ s.val s1 then y else -y)] ∧
        t.flags.IsPrimary g ∧ t.flags.n = false ∧
        g = Int.gcd (s.val s0) (s.val s1) ∧
        s.val s0 * (if 0 ≤ s.val s0 then x else -x) + s.val s1 * (if 0 ≤ s.val s1 then y else -y) = g) ∧
    (¬[d0, d1, d2].Nodup → ∃ t, exec (.egcd d0 d1 d2 s0 s1) s = .next t ∧ ErrorCompleted s t 4)

/-- R194, R13: the greatest common divisor, never negative; `gcd(0, 0) = 0`. -/
def Obligations.GcdIsTheGreatestCommonDivisor : Prop :=
  ∀ (s : State) (d0 s0 s1 : Reg),
    Encoded (.gcd d0 s0 s1) 0x39#8 [(.D0, d0), (.S0, s0), (.S1, s1)] ∧
    ∃ (t : State) (g : Int), exec (.gcd d0 s0 s1) s = .next t ∧ Completed s t [(d0, g)] ∧ t.flags.IsPrimary g ∧
      0 ≤ g ∧ g ∣ s.val s0 ∧ g ∣ s.val s1 ∧ (∀ d : Int, d ∣ s.val s0 → d ∣ s.val s1 → d ∣ g) ∧
      (t.flags.z = true ↔ s.val s0 = 0 ∧ s.val s1 = 0)

/-- R195: the inverse in `[0, m)`, 0 for `m = 1`, and (R196, the spec's own inference) the only one for `m >= 2`;
INVALID_MODULUS before NO_INVERSE_EXISTS. -/
def Obligations.ModinvIsTheInverse : Prop :=
  ∀ (s : State) (d0 s0 s1 : Reg),
    Encoded (.modinv d0 s0 s1) 0x3A#8 [(.D0, d0), (.S0, s0), (.S1, s1)] ∧
    (0 < s.val s1 → Int.gcd (s.val s0) (s.val s1) = 1 →
      ∃ (t : State) (x : Int), exec (.modinv d0 s0 s1) s = .next t ∧
        0 ≤ x ∧ x < s.val s1 ∧ (2 ≤ s.val s1 → s.val s0 * x % s.val s1 = 1) ∧
        (∀ y : Int, 0 ≤ y → y < s.val s1 → s.val s0 * y % s.val s1 = 1 → y = x) ∧
        x = (egcdAlg (s.val s0) (s.val s1)).2.1 % s.val s1 ∧
        Completed s t [(d0, x)] ∧ t.flags.IsPrimary x ∧ t.flags.n = false) ∧
    (0 < s.val s1 → Int.gcd (s.val s0) (s.val s1) ≠ 1 →
      ∃ t, exec (.modinv d0 s0 s1) s = .next t ∧ ErrorCompleted s t 3) ∧
    (s.val s1 ≤ 0 → ∃ t, exec (.modinv d0 s0 s1) s = .next t ∧ ErrorCompleted s t 2)

/-! ### Errors -/

/-- R211: code 1 exactly for a divider command with divisor 0; it records nothing but the code, and CMDLAST keeps the
word. -/
def Obligations.DivisionByZeroExactlyWhen : Prop :=
  ∀ (i : Instr) (s t : State), i.wellFormed = true → exec i s = .next t →
    (t.status.errcode = 1#4 ↔
      match i with
      | .divmod _ _ _ s1 => s.val s1 = 0
      | .div _ _ s1 => s.val s1 = 0
      | .mod _ _ s1 => s.val s1 = 0
      | _ => False) ∧
    (t.status.errcode = 1#4 → ErrorCompleted s t 1)

/-- R212, R213: code 2 exactly for MODMUL, MODEXP and MODINV with a modulus `<= 0`; code 3 exactly for MODINV with a
positive modulus not coprime to `a`. -/
def Obligations.ModulusErrorsExactlyWhen : Prop :=
  ∀ (i : Instr) (s t : State), i.wellFormed = true → exec i s = .next t →
    (t.status.errcode = 2#4 ↔
      match i with
      | .modmul _ _ _ s2 => s.val s2 ≤ 0
      | .modexp _ _ _ s2 => s.val s2 ≤ 0
      | .modinv _ _ s1 => s.val s1 ≤ 0
      | _ => False) ∧
    (t.status.errcode = 3#4 ↔
      match i with
      | .modinv _ s0 s1 => 0 < s.val s1 ∧ Int.gcd (s.val s0) (s.val s1) ≠ 1
      | _ => False)

/-- R215, R223: code 6 exactly for MODEXP with a good modulus and a negative exponent, and MRROUND outside its
domain. -/
def Obligations.InvalidOperandExactlyWhen : Prop :=
  ∀ (i : Instr) (s t : State), i.wellFormed = true → exec i s = .next t →
    (t.status.errcode = 6#4 ↔
      match i with
      | .modexp _ _ s1 s2 => 0 < s.val s2 ∧ s.val s1 < 0
      | .mrround s0 s1 => s.val s0 < 5 ∨ s.val s0 % 2 = 0 ∨ s.val s1 < 2 ∨ s.val s0 - 2 < s.val s1
      | _ => False)

/-- R216, R155, R191: code 5 exactly for ADD, SUB and MUL with a result above MAXMAG; no other command can raise
it. -/
def Obligations.CapacityExceededExactlyWhen : Prop :=
  ∀ (i : Instr) (s t : State), i.wellFormed = true → exec i s = .next t →
    (t.status.errcode = 5#4 ↔
      match i with
      | .add _ s0 s1 => Config.maxMag < (s.val s0 + s.val s1).natAbs
      | .sub _ s0 s1 => Config.maxMag < (s.val s0 - s.val s1).natAbs
      | .mul _ s0 s1 => Config.maxMag < (s.val s0 * s.val s1).natAbs
      | _ => False)

/-- R220 (the spec's own inference), R225: a legal command ends without error or with an error its row of R220 lists,
and an error completion writes no register, sign bit or flag and keeps the word in CMDLAST. -/
def Obligations.ErrorsAreListedAndWriteNothing : Prop :=
  ∀ (i : Instr) (s t : State), i.wellFormed = true → exec i s = .next t →
    (t.status.err = false ∧ t.status.errcode = 0#4) ∨
      ∃ e ∈ allowedErrors i, ErrorCompleted s t e.code.toNat

/-! ### The command life cycle and the step -/

/-- R112: on the sequencer's turn with BUSY = 1 and a legal word in CMDLAST, the step is the command's completion, on
the state with that turn taken off the agenda; with BUSY = 0 the turn passes and nothing changes. With no event left,
the turn is the sequencer's (log 3). -/
def Obligations.StepRunsTheDecodedCommand : Prop :=
  (∀ (s : State) (i : Instr), s.status.busy = true → (s.agenda.head? = some .complete ∨ s.agenda = []) →
    decode s.cmdLast = .ok i → step s = exec i { s with agenda := s.agenda.tail }) ∧
  ∀ s : State, s.status.busy = false → (s.agenda.head? = some .complete ∨ s.agenda = []) →
    step s = .next { s with agenda := s.agenda.tail }

/-- R100, R214: an illegal word in execution completes with ILLEGAL_COMMAND and writes nothing. -/
def Obligations.IllegalWordsCompleteWithTheirCode : Prop :=
  ∀ s : State, s.status.busy = true → (s.agenda.head? = some .complete ∨ s.agenda = []) →
    legal s.cmdLast = false →
    ∃ t, step s = .next t ∧ ErrorCompleted { s with agenda := s.agenda.tail } t 4

/-- R263: every step goes on, and with no further host access a busy CORE completes in the next step. -/
def Obligations.EveryCommandTerminates : Prop :=
  (∀ s : State, ∃ t, step s = .next t) ∧
  ∀ s t : State, s.status.busy = true → (s.agenda.head? = some .complete ∨ s.agenda = []) →
    step s = .next t → t.status.busy = false ∧ t.status.done = true

/-- R110: acceptance of any word while idle; refusal while busy. -/
def Obligations.AcceptanceLatchesTheWord : Prop :=
  ∀ (s : State) (w : Word) (rest : List Event), s.agenda = .port 0x010#15 (.write .w32 w) :: rest →
    (s.status.busy = false →
      ∃ t, step s = .next t ∧ t.cmdLast = w ∧ t.status = ⟨true, false, false, s.status.werr, 0#4⟩ ∧
        SameData s t ∧ t.ctrl = s.ctrl ∧ t.agenda = rest ∧ t.response = some .written ∧ t.powerOns = s.powerOns) ∧
    (s.status.busy = true →
      step s = .next { s with
        status := { s.status with werr := true }, agenda := rest, response := some .written })

/-! ### The bus -/

/-- R68: while busy, a write to CMD, SIGN or a limb window changes nothing but WERR, with a normal response; writes to
ID, PARAM, FLAGS and reserved offsets are ignored and do not set WERR. -/
def Obligations.WritesWhileBusyAreRefused : Prop :=
  ∀ (s : State) (off : Offset) (v : Word) (rest : List Event), s.status.busy = true → off.toNat % 4 = 0 →
    s.agenda = .port off (.write .w32 v) :: rest →
    ∃ t, step s = .next t ∧ t.response = some .written ∧
      (off = 0x010#15 ∨ off = 0x018#15 ∨ (0x1000 ≤ off.toNat ∧ off.toNat < 0x5000) →
        t = { s with status := { s.status with werr := true }, agenda := rest, response := t.response }) ∧
      (off = 0x000#15 ∨ off = 0x004#15 ∨ off = 0x014#15 ∨ (0x01C ≤ off.toNat ∧ off.toNat < 0x1000) ∨
          0x5000 ≤ off.toNat →
        t = { s with agenda := rest, response := t.response })

/-- R69, R31: while busy, SIGN and limb reads give 0; ID, PARAM, CTRL, STATUS, CMD and FLAGS show their contents, busy
or idle; no read has a side effect. -/
def Obligations.ReadsAnswerTheContents : Prop :=
  ∀ (s : State) (off : Offset) (rest : List Event), off.toNat % 4 = 0 →
    s.agenda = .port off (.read .w32) :: rest →
    ∃ (t : State) (w : Word), step s = .next t ∧ t = { s with agenda := rest, response := some (.readData w) } ∧
      (s.status.busy = true → off = 0x018#15 ∨ (0x1000 ≤ off.toNat ∧ off.toNat < 0x5000) → w = 0#32) ∧
      (off = 0x000#15 → w = 0x52534131#32) ∧ (off = 0x004#15 → w = 0x02002008#32) ∧
      (off = 0x008#15 → w.getLsbD 0 = s.ctrl.ie ∧ w.extractLsb' 1 31 = 0#31) ∧
      (off = 0x00C#15 → w = s.status.toWord) ∧ (off = 0x010#15 → w = s.cmdLast) ∧
      (off = 0x014#15 → w = s.flags.toWord)

/-- R70: no read changes any state; a read made again answers the same word while only further reads have come
between (they change the agenda and the last answer alone); and a write that changes state is one to CTRL, STATUS, CMD,
SIGN or a limb window. -/
def Obligations.ReadsChangeNothing : Prop :=
  (∀ (s : State) (off : Offset) (width : Width) (rest : List Event),
    s.agenda = .port off (.read width) :: rest →
    ∃ t, step s = .next t ∧ t = { s with agenda := rest, response := t.response } ∧
      ∀ (later : List Event) (answer : Option Response),
        ∃ u, step { t with agenda := .port off (.read width) :: later, response := answer } = .next u ∧
          u.response = t.response) ∧
  (∀ (s : State) (off : Offset) (width : Width) (v : Word) (rest : List Event),
    s.agenda = .port off (.write width v) :: rest →
    ∃ t, step s = .next t ∧
      (t ≠ { s with agenda := rest, response := t.response } →
        off = 0x008#15 ∨ off = 0x00C#15 ∨ off = 0x010#15 ∨ off = 0x018#15 ∨
          (0x1000 ≤ off.toNat ∧ off.toNat < 0x5000)))

/-- R62: an access of another width or at a misaligned offset gets a bus error and changes no state; a read so refused
carries data 0. -/
def Obligations.BadAccessesGetABusError : Prop :=
  ∀ (s : State) (off : Offset) (op : HostOp) (rest : List Event), s.agenda = .port off op :: rest →
    (op.width ≠ .w32 ∨ off.toNat % 4 ≠ 0) →
    ∃ e, step s = .next { s with agenda := rest, response := some e } ∧
      (∀ width, op = .read width → e = .readError 0#32) ∧ (∀ width v, op = .write width v → e = .writeError)

/-- R64: a reserved offset reads 0 and ignores writes, with a normal response, busy or idle. -/
def Obligations.ReservedOffsetsReadZero : Prop :=
  ∀ (s : State) (off : Offset) (rest : List Event), off.toNat % 4 = 0 →
    ((0x01C ≤ off.toNat ∧ off.toNat < 0x1000) ∨ 0x5000 ≤ off.toNat) →
    (s.agenda = .port off (.read .w32) :: rest →
      step s = .next { s with agenda := rest, response := some (.readData 0#32) }) ∧
    (∀ v, s.agenda = .port off (.write .w32 v) :: rest →
      step s = .next { s with agenda := rest, response := some .written })

/-- R27, R28: ID and PARAM read their hardwired values, busy or idle, and ignore writes. -/
def Obligations.IdentificationIsHardwired : Prop :=
  ∀ (s : State) (rest : List Event),
    (s.agenda = .port 0x000#15 (.read .w32) :: rest →
      step s = .next { s with agenda := rest, response := some (.readData 0x52534131#32) }) ∧
    (s.agenda = .port 0x004#15 (.read .w32) :: rest →
      step s = .next { s with agenda := rest, response := some (.readData 0x02002008#32) }) ∧
    (∀ v, s.agenda = .port 0x000#15 (.write .w32 v) :: rest ∨ s.agenda = .port 0x004#15 (.write .w32 v) :: rest →
      step s = .next { s with agenda := rest, response := some .written })

/-- R65: the limb a window offset selects, by division and by bit fields, and every limb has its offset. -/
def Obligations.LimbWindowSelectsTheLimb : Prop :=
  (∀ off : Offset, off.toNat % 4 = 0 → 0x1000 ≤ off.toNat → off.toNat < 0x5000 →
    ∃ (r : Reg) (i : Fin Config.maxLimbs), locate off = .limb r i ∧
      r.val = (off.toNat - 0x1000) / 0x800 ∧ i.val = (off.toNat - 0x1000) % 0x800 / 4 ∧
      r.val + 2 = (off.extractLsb' 11 4).toNat ∧ i.val = (off.extractLsb' 2 9).toNat) ∧
  (∀ (r : Reg) (i : Fin Config.maxLimbs),
    locate (BitVec.ofNat 15 (0x1000 + 0x800 * r.val + 4 * i.val)) = .limb r i)

/-- R66: while idle, a limb write changes that limb and its `def` flag only, and a limb read answers the limb. -/
def Obligations.LimbAccessWhileIdle : Prop :=
  ∀ (s : State) (r : Reg) (i : Fin Config.maxLimbs) (rest : List Event), s.status.busy = false →
    (∀ v, s.agenda = .port (BitVec.ofNat 15 (0x1000 + 0x800 * r.val + 4 * i.val)) (.write .w32 v) :: rest →
      ∃ t, step s = .next t ∧ t.limb r i = v ∧ t.regs[r].defd.getLsbD i = true ∧
        (∀ (r' : Reg) (j : Nat), j < Config.maxLimbs → (r', j) ≠ (r, i.val) →
          t.limb r' j = s.limb r' j ∧ t.regs[r'].defd.getLsbD j = s.regs[r'].defd.getLsbD j) ∧
        t.sign = s.sign ∧ t.flags = s.flags ∧ t.status = s.status ∧ t.ctrl = s.ctrl ∧ t.cmdLast = s.cmdLast ∧
        t.agenda = rest ∧ t.response = some .written ∧ t.powerOns = s.powerOns) ∧
    (s.agenda = .port (BitVec.ofNat 15 (0x1000 + 0x800 * r.val + 4 * i.val)) (.read .w32) :: rest →
      step s = .next { s with agenda := rest, response := some (.readData (s.limb r i)) })

/-- R33, R67: while idle, a SIGN write sets all eight sign bits from bits [7:0] and nothing else, and a SIGN read gives
them, bits [31:8] being 0. -/
def Obligations.SignAccessWhileIdle : Prop :=
  ∀ (s : State) (rest : List Event), s.status.busy = false →
    (∀ v, s.agenda = .port 0x018#15 (.write .w32 v) :: rest →
      ∃ t, step s = .next t ∧ (∀ r : Reg, t.sgn r = v.getLsbD r) ∧
        t = { s with sign := t.sign, agenda := rest, response := some .written }) ∧
    (s.agenda = .port 0x018#15 (.read .w32) :: rest →
      ∃ w, step s = .next { s with agenda := rest, response := some (.readData w) } ∧
        (∀ r : Reg, w.getLsbD r = s.sgn r) ∧ ∀ k, 8 ≤ k → w.getLsbD k = false)

/-- R226, R29: a CTRL write sets IE from its bit 0; with ABORT set it ends a command in execution with code 7 and
nothing else written, and when idle it does nothing; with SRST set the soft reset is performed and the abort is not. -/
def Obligations.CtrlWriteSetsEnableAndAborts : Prop :=
  ∀ (s : State) (v : Word) (rest : List Event), s.agenda = .port 0x008#15 (.write .w32 v) :: rest →
    ∃ t, step s = .next t ∧ t.agenda = rest ∧ t.powerOns = s.powerOns ∧
      (v.getLsbD 2 = false → SameData s t ∧ t.cmdLast = s.cmdLast ∧ t.ctrl.ie = v.getLsbD 0 ∧
        (v.getLsbD 1 = true → s.status.busy = true → t.status = ⟨false, true, true, s.status.werr, 7#4⟩) ∧
        (v.getLsbD 1 = false ∨ s.status.busy = false → t.status = s.status)) ∧
      (v.getLsbD 2 = true → t.status = ⟨false, false, false, false, 0#4⟩ ∧ t.ctrl.ie = false)

/-- R251, R252, R253, R42: SRST clears CTRL, STATUS, CMDLAST and FLAGS, drops IRQ, keeps limbs, `def` flags and SIGN,
busy or idle, whatever the other bits of the write. -/
def Obligations.SoftResetKeepsTheRegisters : Prop :=
  ∀ (s : State) (v : Word) (rest : List Event), s.agenda = .port 0x008#15 (.write .w32 v) :: rest →
    v.getLsbD 2 = true →
    ∃ t, step s = .next t ∧ t.regs = s.regs ∧ t.sign = s.sign ∧ t.ctrl.ie = false ∧
      t.status = ⟨false, false, false, false, 0#4⟩ ∧ t.cmdLast = 0#32 ∧
      t.flags = ⟨false, false, false, false, false, false, false⟩ ∧ t.irq = false ∧ t.agenda = rest ∧
      t.powerOns = s.powerOns

/-- R42, R250: power-on reset, as the state the machine starts in and as an event: control state 0, idle, SIGN 0, no limb
defined. (What is still on the agenda stays there: log 11.) -/
def Obligations.PowerOnResetValues : Prop :=
  (∀ (s : State) (rest : List Event), s.agenda = .powerOn :: rest →
    step s = .next { State.reset with agenda := rest, powerOns := s.powerOns + 1 }) ∧
  State.reset.sign = 0#8 ∧ State.reset.ctrl.ie = false ∧
  State.reset.status = ⟨false, false, false, false, 0#4⟩ ∧ State.reset.cmdLast = 0#32 ∧
  State.reset.flags.toWord = 0#32 ∧ State.reset.irq = false ∧
  ∀ (r : Reg) (i : Nat), State.reset.regs[r].defd.getLsbD i = false

/-- R30: a STATUS write clears DONE and WERR where its bits 1 and 3 are 1 and ignores every other bit, busy or idle; a
STATUS read shows the fields in their places and 0 elsewhere. -/
def Obligations.StatusRegisterAccess : Prop :=
  ∀ (s : State) (rest : List Event),
    (∀ v, s.agenda = .port 0x00C#15 (.write .w32 v) :: rest →
      step s = .next { s with
        status := ⟨s.status.busy, s.status.done && !v.getLsbD 1, s.status.err, s.status.werr && !v.getLsbD 3,
          s.status.errcode⟩
        agenda := rest, response := some .written }) ∧
    (s.agenda = .port 0x00C#15 (.read .w32) :: rest →
      ∃ w, step s = .next { s with agenda := rest, response := some (.readData w) } ∧
        w.getLsbD 0 = s.status.busy ∧ w.getLsbD 1 = s.status.done ∧ w.getLsbD 2 = s.status.err ∧
        w.getLsbD 3 = s.status.werr ∧ w.extractLsb' 4 4 = 0#4 ∧ w.extractLsb' 8 4 = s.status.errcode ∧
        w.extractLsb' 12 20 = 0#20)

/-- R32: FLAGS reads its seven flags in their places and 0 elsewhere, and ignores writes. -/
def Obligations.FlagsRegisterAccess : Prop :=
  ∀ (s : State) (rest : List Event),
    (∀ v, s.agenda = .port 0x014#15 (.write .w32 v) :: rest →
      step s = .next { s with agenda := rest, response := some .written }) ∧
    (s.agenda = .port 0x014#15 (.read .w32) :: rest →
      ∃ w, step s = .next { s with agenda := rest, response := some (.readData w) } ∧
        w.getLsbD 0 = s.flags.z ∧ w.getLsbD 1 = s.flags.n ∧ w.getLsbD 2 = s.flags.odd ∧
        w.getLsbD 3 = s.flags.lt ∧ w.getLsbD 4 = s.flags.eq ∧ w.getLsbD 5 = s.flags.gt ∧
        w.getLsbD 6 = s.flags.pass ∧ w.extractLsb' 7 25 = 0#25)

/-- R221, R222: IRQ after the events that raise or drop it: it is IE after any completion; 0 after an acceptance, after
DONE is cleared and after IE is cleared; 1 from the moment IE is set while DONE = 1. A refused write leaves it. -/
def Obligations.InterruptFollowsEnableAndDone : Prop :=
  ∀ s t : State, step s = .next t →
    (s.status.busy = true → nextEvent s = .complete → t.irq = s.ctrl.ie) ∧
    (∀ w, s.status.busy = false → nextEvent s = .port 0x010#15 (.write .w32 w) → t.irq = false) ∧
    (∀ v, nextEvent s = .port 0x00C#15 (.write .w32 v) → v.getLsbD 1 = true → t.irq = false) ∧
    (∀ v, nextEvent s = .port 0x008#15 (.write .w32 v) → v.getLsbD 0 = false → t.irq = false) ∧
    (∀ v, nextEvent s = .port 0x008#15 (.write .w32 v) → v.getLsbD 0 = true → v.getLsbD 2 = false →
      s.status.done = true → t.irq = true) ∧
    (∀ off w, s.status.busy = true → nextEvent s = .port off (.write .w32 w) → off.toNat % 4 = 0 →
      off ≠ 0x008#15 → off ≠ 0x00C#15 → t.irq = s.irq)

/-! ### Values of registers -/

/-- R21, R22: the value is the signed sum of the limbs, and negative zero is 0. -/
def Obligations.ValueIsTheSignedLimbSum : Prop :=
  ∀ (s : State) (r : Reg),
    s.magnitude r = ∑ i ∈ Finset.range 512, (s.limb r i).toNat * 2 ^ (32 * i) ∧
    s.magnitude r ≤ Config.maxMag ∧
    s.val r = (if s.sgn r = true ∧ s.magnitude r ≠ 0 then -(s.magnitude r : Int) else s.magnitude r)

/-- R67, R22: a register loaded with the limbs of `|v|` and the sign bit `v < 0` has the value `v`. -/
def Obligations.LoadedLimbsGiveTheValue : Prop :=
  ∀ (s : State) (r : Reg) (v : Int), v.natAbs ≤ Config.maxMag →
    (∀ i < 512, s.limb r i = BitVec.ofNat 32 (v.natAbs / 2 ^ (32 * i))) →
    (s.sgn r = true ↔ v < 0) → s.val r = v

/-! ### Laws across commands -/

/-- R125 (the spec's own inference): within capacity, ADD then SUB gives the first operand back; otherwise the ADD ends
with CAPACITY_EXCEEDED. -/
def Obligations.AddThenSubReturnsTheOperand : Prop :=
  ∀ (s : State) (d r x y : Reg),
    (d ≠ y → (s.val x + s.val y).natAbs ≤ Config.maxMag →
      ∃ u v, exec (.add d x y) s = .next u ∧ exec (.sub r d y) u = .next v ∧ v.val r = s.val x ∧
        v.status.err = false) ∧
    (Config.maxMag < (s.val x + s.val y).natAbs → ∃ u, exec (.add d x y) s = .next u ∧ ErrorCompleted s u 5)

/-- R162 (the spec's own inference): MODMUL equals the product of the reduced operands reduced, is symmetric, is
congruent to the product, and gives what MUL followed by MOD
gives whenever that MUL fits capacity. -/
def Obligations.ModmulAgreesWithMulThenMod : Prop :=
  ∀ (s : State) (d x y m : Reg), 0 < s.val m →
    ∃ w w', exec (.modmul d x y m) s = .next w ∧ exec (.modmul d y x m) s = .next w' ∧
      w.val d = (s.val x % s.val m) * (s.val y % s.val m) % s.val m ∧ w'.val d = w.val d ∧
      s.val m ∣ s.val x * s.val y - w.val d ∧
      ((s.val x * s.val y).natAbs ≤ Config.maxMag → d ≠ m →
        ∃ u v, exec (.mul d x y) s = .next u ∧ exec (.mod d d m) u = .next v ∧ v.val d = w.val d)

/-- R190: EGCD_ALG gives the gcd and Bézout coefficients for every pair, and its special cases. -/
def Obligations.ExtendedEuclidIsBezout : Prop :=
  ∀ a b : Int,
    (egcdAlg a b).1 = Int.gcd a b ∧ a * (egcdAlg a b).2.1 + b * (egcdAlg a b).2.2 = (egcdAlg a b).1 ∧
    (∃ x y, EuclidRun a.natAbs b.natAbs 1 0 0 1 (egcdAlg a b).1 x y ∧
      (egcdAlg a b).2.1 = (if 0 ≤ a then x else -x) ∧ (egcdAlg a b).2.2 = (if 0 ≤ b then y else -y)) ∧
    egcdAlg 0 0 = (0, 1, 0) ∧ egcdAlg a 0 = ((a.natAbs : Int), (if a < 0 then -1 else 1), 0) ∧
    (b ≠ 0 → egcdAlg 0 b = ((b.natAbs : Int), 0, if b < 0 then -1 else 1))

/-- R191 (the spec's own inference): the coefficients are bounded by the operands, so they fit a register whenever the
operands do. -/
def Obligations.BezoutCoefficientsAreBounded : Prop :=
  ∀ a b : Int,
    (egcdAlg a b).2.1.natAbs ≤ max b.natAbs 1 ∧ (egcdAlg a b).2.2.natAbs ≤ max a.natAbs 1 ∧
    (a.natAbs ≤ Config.maxMag → b.natAbs ≤ Config.maxMag →
      (egcdAlg a b).2.1.natAbs ≤ Config.maxMag ∧ (egcdAlg a b).2.2.natAbs ≤ Config.maxMag)

/-- R182 (the spec's own inference): the iterative form gives the same PASS for every accepted candidate and base. -/
def Obligations.IterativeRoundGivesTheSamePass : Prop :=
  ∀ (n base : Int) (k d : Nat), 5 ≤ n → n % 2 = 1 → 2 ≤ base → base ≤ n - 2 → n - 1 = 2 ^ k * d → d % 2 = 1 →
    mrPass n base = mrIterative n base k d

/-! ### Whole-machine rules -/

/-- 10_state.md R30, R42, R110, 60_exceptions.md R218, and the canonical form of the limb storage: every step keeps the
invariant, from every state that meets it. -/
def Obligations.StepKeepsTheInvariant : Prop :=
  ∀ s t : State, s.Inv → step s = .next t → t.Inv

/-- The invariant holds after power-on reset. -/
def Obligations.ResetMeetsTheInvariant : Prop := State.reset.Inv

/-- R24: a register's limbs, `def` flags or sign bit change only by a host write to its window or to SIGN while idle, by
the completion of a command that names it as a destination, or by power-on reset. -/
def Obligations.RegistersChangeOnlyByTheirWriters : Prop :=
  ∀ (s t : State) (r : Reg), step s = .next t → (t.regs[r] ≠ s.regs[r] ∨ t.sgn r ≠ s.sgn r) →
    (∃ (off : Offset) (v : Word), s.status.busy = false ∧
      (nextEvent s = .port off (.write .w32 v) ∨
        ∃ addr, nextEvent s = .bus addr (.write .w32 v) ∧ route addr = some off) ∧
      (off = 0x018#15 ∨ (0x1000 + 0x800 * r.val ≤ off.toNat ∧ off.toNat < 0x1800 + 0x800 * r.val))) ∨
    (∃ i, s.status.busy = true ∧ nextEvent s = .complete ∧ decode s.cmdLast = .ok i ∧ r ∈ i.dests) ∨
    nextEvent s = .powerOn

/-- R34: FLAGS changes only by a successful completion or by a reset. -/
def Obligations.FlagsChangeOnlyBySuccessOrReset : Prop :=
  ∀ s t : State, step s = .next t → t.flags ≠ s.flags →
    (s.status.busy = true ∧ nextEvent s = .complete ∧ t.status.err = false) ∨
    (∃ (off : Offset) (v : Word), off = 0x008#15 ∧ v.getLsbD 2 = true ∧
      (nextEvent s = .port off (.write .w32 v) ∨
        ∃ addr, nextEvent s = .bus addr (.write .w32 v) ∧ route addr = some off)) ∨
    nextEvent s = .powerOn

/-- R61: a bus access inside the window is the port access at its offset; one outside leaves the CORE alone (log 8). -/
def Obligations.BusAccessesAreRoutedByTheWindow : Prop :=
  ∀ (s : State) (addr : Nat) (op : HostOp) (rest : List Event), s.agenda = .bus addr op :: rest →
    (∀ off : Offset, addr = Config.coreBase + off.toNat →
      step s = step { s with agenda := .port off op :: rest }) ∧
    (addr < Config.coreBase ∨ Config.coreBase + 0x8000 ≤ addr → step s = .next { s with agenda := rest })

/-- R40 (log 2): the guarded step stops exactly where a completing command has a source with an undefined limb, or an
idle aligned 32-bit read names an undefined limb; elsewhere it is the step. -/
def Obligations.GuardedStepStopsAtUndefinedLimbs : Prop :=
  ∀ s : State,
    (guardedStep s = .fault .undefinedLimb ↔
      (s.status.busy = true ∧ nextEvent s = .complete ∧ ∃ i, decode s.cmdLast = .ok i ∧
        ∃ r ∈ i.sources, ∃ j < Config.maxLimbs, s.regs[r].defd.getLsbD j = false) ∨
      (s.status.busy = false ∧ ∃ (off : Offset) (r : Reg) (j : Fin Config.maxLimbs), off.toNat % 4 = 0 ∧
        locate off = .limb r j ∧ s.regs[r].defd.getLsbD j = false ∧
        (nextEvent s = .port off (.read .w32) ∨
          ∃ addr, nextEvent s = .bus addr (.read .w32) ∧ route addr = some off))) ∧
    (guardedStep s ≠ .fault .undefinedLimb → guardedStep s = step s)

/-- R19, R40 (logs 1, 2): a step that uses no undefined limb does not depend on the unspecified power-on contents: with
any other contents it does the same. -/
def Obligations.SafeStepsIgnorePowerOnContents : Prop :=
  ∀ (s : State) (k : Nat), s.SafeStep → nextEvent s ≠ .powerOn →
    ∃ t, step s = .next t ∧ step { s with powerOns := k } = .next { t with powerOns := k }
end

