-- ==== Sys2Proof/Laws/State.lean ====
section
/-! SUPPORT. One lemma per field per update of State, true by `rfl`, so that no later proof unfolds a record update. -/

namespace Sys2Proof.Machine

variable {maxLimbs : Nat} (s : State maxLimbs)

/-! `State.accept` -/
@[simp] theorem accept_regs (w : Word) : (s.accept w).regs = s.regs := rfl
@[simp] theorem accept_sign (w : Word) : (s.accept w).sign = s.sign := rfl
@[simp] theorem accept_ctrl (w : Word) : (s.accept w).ctrl = s.ctrl := rfl
@[simp] theorem accept_status (w : Word) : (s.accept w).status = { s.status with busy := true, done := false, err := false, errcode := 0#4 } := rfl
@[simp] theorem accept_flags (w : Word) : (s.accept w).flags = s.flags := rfl
@[simp] theorem accept_cmdLast (w : Word) : (s.accept w).cmdLast = w := rfl
@[simp] theorem accept_agenda (w : Word) : (s.accept w).agenda = s.agenda := rfl
@[simp] theorem accept_response (w : Word) : (s.accept w).response = s.response := rfl
@[simp] theorem accept_powerOns (w : Word) : (s.accept w).powerOns = s.powerOns := rfl

/-! `State.raiseError` -/
@[simp] theorem raiseError_regs (e : ErrCode) : (s.raiseError e).regs = s.regs := rfl
@[simp] theorem raiseError_sign (e : ErrCode) : (s.raiseError e).sign = s.sign := rfl
@[simp] theorem raiseError_ctrl (e : ErrCode) : (s.raiseError e).ctrl = s.ctrl := rfl
@[simp] theorem raiseError_status (e : ErrCode) : (s.raiseError e).status = { s.status with busy := false, done := true, err := true, errcode := e.code } := rfl
@[simp] theorem raiseError_flags (e : ErrCode) : (s.raiseError e).flags = s.flags := rfl
@[simp] theorem raiseError_cmdLast (e : ErrCode) : (s.raiseError e).cmdLast = s.cmdLast := rfl
@[simp] theorem raiseError_agenda (e : ErrCode) : (s.raiseError e).agenda = s.agenda := rfl
@[simp] theorem raiseError_response (e : ErrCode) : (s.raiseError e).response = s.response := rfl
@[simp] theorem raiseError_powerOns (e : ErrCode) : (s.raiseError e).powerOns = s.powerOns := rfl

/-! `State.acknowledge` -/
@[simp] theorem acknowledge_regs (v : Word) : (s.acknowledge v).regs = s.regs := rfl
@[simp] theorem acknowledge_sign (v : Word) : (s.acknowledge v).sign = s.sign := rfl
@[simp] theorem acknowledge_ctrl (v : Word) : (s.acknowledge v).ctrl = s.ctrl := rfl
@[simp] theorem acknowledge_status (v : Word) : (s.acknowledge v).status = { s.status with done := s.status.done && !v.getLsbD 1, werr := s.status.werr && !v.getLsbD 3 } := rfl
@[simp] theorem acknowledge_flags (v : Word) : (s.acknowledge v).flags = s.flags := rfl
@[simp] theorem acknowledge_cmdLast (v : Word) : (s.acknowledge v).cmdLast = s.cmdLast := rfl
@[simp] theorem acknowledge_agenda (v : Word) : (s.acknowledge v).agenda = s.agenda := rfl
@[simp] theorem acknowledge_response (v : Word) : (s.acknowledge v).response = s.response := rfl
@[simp] theorem acknowledge_powerOns (v : Word) : (s.acknowledge v).powerOns = s.powerOns := rfl

/-! `State.commit` -/
@[simp] theorem commit_regs (V : List (Reg × Int)) (f : Flags) : (s.commit V f).regs = (s.writeAll V).regs := rfl
@[simp] theorem commit_sign (V : List (Reg × Int)) (f : Flags) : (s.commit V f).sign = (s.writeAll V).sign := rfl
@[simp] theorem commit_ctrl (V : List (Reg × Int)) (f : Flags) : (s.commit V f).ctrl = (s.writeAll V).ctrl := rfl
@[simp] theorem commit_flags (V : List (Reg × Int)) (f : Flags) : (s.commit V f).flags = f := rfl
@[simp] theorem commit_cmdLast (V : List (Reg × Int)) (f : Flags) : (s.commit V f).cmdLast = (s.writeAll V).cmdLast := rfl
@[simp] theorem commit_agenda (V : List (Reg × Int)) (f : Flags) : (s.commit V f).agenda = (s.writeAll V).agenda := rfl
@[simp] theorem commit_response (V : List (Reg × Int)) (f : Flags) : (s.commit V f).response = (s.writeAll V).response := rfl
@[simp] theorem commit_powerOns (V : List (Reg × Int)) (f : Flags) : (s.commit V f).powerOns = (s.writeAll V).powerOns := rfl

/-! `State.softReset` -/
@[simp] theorem softReset_regs : (s.softReset).regs = s.regs := rfl
@[simp] theorem softReset_sign : (s.softReset).sign = s.sign := rfl
@[simp] theorem softReset_ctrl : (s.softReset).ctrl = ⟨false⟩ := rfl
@[simp] theorem softReset_status : (s.softReset).status = Status.zero := rfl
@[simp] theorem softReset_flags : (s.softReset).flags = Flags.zero := rfl
@[simp] theorem softReset_cmdLast : (s.softReset).cmdLast = 0#32 := rfl
@[simp] theorem softReset_agenda : (s.softReset).agenda = s.agenda := rfl
@[simp] theorem softReset_response : (s.softReset).response = s.response := rfl
@[simp] theorem softReset_powerOns : (s.softReset).powerOns = s.powerOns := rfl

/-! `State.refuseWrite` -/
@[simp] theorem refuseWrite_regs : (s.refuseWrite).regs = s.regs := rfl
@[simp] theorem refuseWrite_sign : (s.refuseWrite).sign = s.sign := rfl
@[simp] theorem refuseWrite_ctrl : (s.refuseWrite).ctrl = s.ctrl := rfl
@[simp] theorem refuseWrite_status : (s.refuseWrite).status = { s.status with werr := true } := rfl
@[simp] theorem refuseWrite_flags : (s.refuseWrite).flags = s.flags := rfl
@[simp] theorem refuseWrite_cmdLast : (s.refuseWrite).cmdLast = s.cmdLast := rfl
@[simp] theorem refuseWrite_agenda : (s.refuseWrite).agenda = s.agenda := rfl
@[simp] theorem refuseWrite_response : (s.refuseWrite).response = s.response := rfl
@[simp] theorem refuseWrite_powerOns : (s.refuseWrite).powerOns = s.powerOns := rfl

/-! `State.writeVal` -/
@[simp] theorem writeVal_regs (r : Reg) (v : Int) : (s.writeVal r v).regs = s.regs.set r (BigReg.ofMagnitude v.natAbs) := rfl
@[simp] theorem writeVal_sign (r : Reg) (v : Int) : (s.writeVal r v).sign = setSignBit s.sign r (decide (v < 0)) := rfl
@[simp] theorem writeVal_ctrl (r : Reg) (v : Int) : (s.writeVal r v).ctrl = s.ctrl := rfl
@[simp] theorem writeVal_status (r : Reg) (v : Int) : (s.writeVal r v).status = s.status := rfl
@[simp] theorem writeVal_flags (r : Reg) (v : Int) : (s.writeVal r v).flags = s.flags := rfl
@[simp] theorem writeVal_cmdLast (r : Reg) (v : Int) : (s.writeVal r v).cmdLast = s.cmdLast := rfl
@[simp] theorem writeVal_agenda (r : Reg) (v : Int) : (s.writeVal r v).agenda = s.agenda := rfl
@[simp] theorem writeVal_response (r : Reg) (v : Int) : (s.writeVal r v).response = s.response := rfl
@[simp] theorem writeVal_powerOns (r : Reg) (v : Int) : (s.writeVal r v).powerOns = s.powerOns := rfl

/-! `State.writeLimb` -/
@[simp] theorem writeLimb_regs (r : Reg) (i : Nat) (v : Word) : (s.writeLimb r i v).regs = s.regs.set r (s.regs[r].setLimb i v) := rfl
@[simp] theorem writeLimb_sign (r : Reg) (i : Nat) (v : Word) : (s.writeLimb r i v).sign = s.sign := rfl
@[simp] theorem writeLimb_ctrl (r : Reg) (i : Nat) (v : Word) : (s.writeLimb r i v).ctrl = s.ctrl := rfl
@[simp] theorem writeLimb_status (r : Reg) (i : Nat) (v : Word) : (s.writeLimb r i v).status = s.status := rfl
@[simp] theorem writeLimb_flags (r : Reg) (i : Nat) (v : Word) : (s.writeLimb r i v).flags = s.flags := rfl
@[simp] theorem writeLimb_cmdLast (r : Reg) (i : Nat) (v : Word) : (s.writeLimb r i v).cmdLast = s.cmdLast := rfl
@[simp] theorem writeLimb_agenda (r : Reg) (i : Nat) (v : Word) : (s.writeLimb r i v).agenda = s.agenda := rfl
@[simp] theorem writeLimb_response (r : Reg) (i : Nat) (v : Word) : (s.writeLimb r i v).response = s.response := rfl
@[simp] theorem writeLimb_powerOns (r : Reg) (i : Nat) (v : Word) : (s.writeLimb r i v).powerOns = s.powerOns := rfl

/-! `State.powerOnReset` -/
@[simp] theorem powerOnReset_regs : (s.powerOnReset).regs = Memory.powerOn := rfl
@[simp] theorem powerOnReset_sign : (s.powerOnReset).sign = 0#8 := rfl
@[simp] theorem powerOnReset_ctrl : (s.powerOnReset).ctrl = ⟨false⟩ := rfl
@[simp] theorem powerOnReset_status : (s.powerOnReset).status = Status.zero := rfl
@[simp] theorem powerOnReset_flags : (s.powerOnReset).flags = Flags.zero := rfl
@[simp] theorem powerOnReset_cmdLast : (s.powerOnReset).cmdLast = 0#32 := rfl
@[simp] theorem powerOnReset_agenda : (s.powerOnReset).agenda = s.agenda := rfl
@[simp] theorem powerOnReset_response : (s.powerOnReset).response = none := rfl
@[simp] theorem powerOnReset_powerOns : (s.powerOnReset).powerOns = s.powerOns + 1 := rfl

/-! `State.resetAt` and `State.reset` -/
@[simp] theorem resetAt_regs : (State.resetAt maxLimbs).regs = Memory.powerOn := rfl
@[simp] theorem resetAt_sign : (State.resetAt maxLimbs).sign = 0#8 := rfl
@[simp] theorem resetAt_ctrl : (State.resetAt maxLimbs).ctrl = ⟨false⟩ := rfl
@[simp] theorem resetAt_status : (State.resetAt maxLimbs).status = Status.zero := rfl
@[simp] theorem resetAt_flags : (State.resetAt maxLimbs).flags = Flags.zero := rfl
@[simp] theorem resetAt_cmdLast : (State.resetAt maxLimbs).cmdLast = 0#32 := rfl
@[simp] theorem resetAt_agenda : (State.resetAt maxLimbs).agenda = [] := rfl
@[simp] theorem resetAt_response : (State.resetAt maxLimbs).response = none := rfl
@[simp] theorem resetAt_powerOns : (State.resetAt maxLimbs).powerOns = 0 := rfl
@[simp] theorem reset_regs : State.reset.regs = Memory.powerOn := rfl
@[simp] theorem reset_sign : State.reset.sign = 0#8 := rfl
@[simp] theorem reset_ctrl : State.reset.ctrl = ⟨false⟩ := rfl
@[simp] theorem reset_status : State.reset.status = Status.zero := rfl
@[simp] theorem reset_flags : State.reset.flags = Flags.zero := rfl
@[simp] theorem reset_cmdLast : State.reset.cmdLast = 0#32 := rfl
@[simp] theorem reset_agenda : State.reset.agenda = [] := rfl
@[simp] theorem reset_response : State.reset.response = none := rfl
@[simp] theorem reset_powerOns : State.reset.powerOns = 0 := rfl

end Sys2Proof.Machine
end

