-- ==== Sys2Proof/Laws/Limbs.lean ====
section
/-! SUPPORT. What each operation on limbs, signs and values does, once: the limb written and the limbs kept, the sum of
R21, the value a commit leaves (R22, R23), and the canonical form of the limb storage. -/

namespace Sys2Proof.Machine

variable {maxLimbs : Nat}

/-! ### Limbs of one register -/

theorem maxBits_eq (maxLimbs : Nat) : Config.maxBits maxLimbs = 32 * maxLimbs := rfl

theorem maxMag_lt (maxLimbs : Nat) : Config.maxMag maxLimbs < 2 ^ Config.maxBits maxLimbs := by
  have : 0 < 2 ^ Config.maxBits maxLimbs := Nat.two_pow_pos _
  unfold Config.maxMag; omega

theorem le_maxMag_iff (n : Nat) : n ≤ Config.maxMag maxLimbs ↔ n < 2 ^ Config.maxBits maxLimbs := by
  have : 0 < 2 ^ Config.maxBits maxLimbs := Nat.two_pow_pos _
  unfold Config.maxMag; omega

/-- A number below `2^16` fits a register of this hardware. -/
theorem le_maxMag_of_small {n : Nat} (h : n < 2 ^ 16) : n ≤ Config.maxMag := by
  rw [le_maxMag_iff]
  exact lt_of_lt_of_le h (Nat.pow_le_pow_right (by decide) (by rw [maxBits_eq]; decide))

theorem setLimb_defd (b : BigReg maxLimbs) (i j : Nat) (v : Word) (hj : j < maxLimbs) :
    (b.setLimb i v).defd.getLsbD j = (b.defd.getLsbD j || decide (i = j)) := by
  simp only [BigReg.setLimb, BitVec.getLsbD_or, BitVec.getLsbD_twoPow]
  by_cases h : i = j
  · subst h; simp [hj]
  · simp [h]

theorem limbBits_getLsbD (b : BigReg maxLimbs) (i k : Nat) :
    (b.limbBits i).getLsbD k = (decide (k < 32) && b.mag.getLsbD (32 * i + k)) := by
  simp [BigReg.limbBits, BitVec.getLsbD_extractLsb']

theorem setLimb_mag_getLsbD (b : BigReg maxLimbs) (i k : Nat) (v : Word) (hk : k < Config.maxBits maxLimbs) :
    (b.setLimb i v).mag.getLsbD k =
      if 32 * i ≤ k ∧ k < 32 * i + 32 then v.getLsbD (k - 32 * i) else b.mag.getLsbD k := by
  simp only [BigReg.setLimb, BitVec.getLsbD_or, BitVec.getLsbD_and, BitVec.getLsbD_not,
    BitVec.getLsbD_shiftLeft, BitVec.getLsbD_setWidth, BitVec.getLsbD_allOnes]
  by_cases h1 : k < 32 * i
  · have : ¬ (32 * i ≤ k ∧ k < 32 * i + 32) := by omega
    simp [h1, hk, this]
  · by_cases h2 : k < 32 * i + 32
    · have h3 : 32 * i ≤ k ∧ k < 32 * i + 32 := by omega
      have h4 : k - 32 * i < 32 := by omega
      have h5 : k - 32 * i < Config.maxBits maxLimbs := by omega
      simp [h1, hk, h3, h4, h5]
    · have h3 : ¬ (32 * i ≤ k ∧ k < 32 * i + 32) := by omega
      have h4 : ¬ k - 32 * i < 32 := by omega
      have h5 : v.getLsbD (k - 32 * i) = false := BitVec.getLsbD_of_ge v _ (by omega)
      simp [h1, hk, h3, h4, h5]

/-- The limb just written reads back (R66). -/
theorem limbBits_setLimb_same (b : BigReg maxLimbs) (i : Nat) (v : Word) (hi : i < maxLimbs) :
    (b.setLimb i v).limbBits i = v := by
  apply BitVec.eq_of_getLsbD_eq
  intro k hk
  have : 32 * i + k < Config.maxBits maxLimbs := by rw [maxBits_eq]; omega
  rw [limbBits_getLsbD, setLimb_mag_getLsbD _ _ _ _ this]
  simp [hk]

/-- A limb write keeps every other limb (R66). -/
theorem limbBits_setLimb_other (b : BigReg maxLimbs) (i j : Nat) (v : Word) (hj : j < maxLimbs) (h : i ≠ j) :
    (b.setLimb i v).limbBits j = b.limbBits j := by
  apply BitVec.eq_of_getLsbD_eq
  intro k hk
  have h1 : 32 * j + k < Config.maxBits maxLimbs := by rw [maxBits_eq]; omega
  have h2 : ¬ (32 * i ≤ 32 * j + k ∧ 32 * j + k < 32 * i + 32) := by omega
  rw [limbBits_getLsbD, setLimb_mag_getLsbD _ _ _ _ h1, limbBits_getLsbD]
  simp [h2]

theorem limbBits_eq_ofNat (b : BigReg maxLimbs) (i : Nat) : b.limbBits i = BitVec.ofNat 32 (b.mag.toNat / 2 ^ (32 * i)) := by
  apply BitVec.eq_of_toNat_eq
  simp [BigReg.limbBits, BitVec.extractLsb'_toNat, Nat.shiftRight_eq_div_pow]

theorem allDefined_iff (b : BigReg maxLimbs) : b.allDefined = true ↔ ∀ i < maxLimbs, b.defd.getLsbD i = true := by
  simp only [BigReg.allDefined, beq_iff_eq]
  constructor
  · intro h i hi; simp [h, hi]
  · intro h; apply BitVec.eq_of_getLsbD_eq; intro i hi; simp [h i hi, hi]

@[simp] theorem ofMagnitude_allDefined (m : Nat) : (BigReg.ofMagnitude m : BigReg maxLimbs).allDefined = true := by
  simp [BigReg.ofMagnitude, BigReg.allDefined]

theorem ofMagnitude_toNat {m : Nat} (h : m ≤ Config.maxMag maxLimbs) : (BigReg.ofMagnitude m : BigReg maxLimbs).mag.toNat = m := by
  simpa [BigReg.ofMagnitude] using Nat.mod_eq_of_lt ((le_maxMag_iff m).1 h)

/-! ### Limbs and sums of a state -/

theorem limb_of_defd {s : State maxLimbs} {r : Reg} {i : Nat} (h : s.regs[r].defd.getLsbD i = true) :
    s.limb r i = s.regs[r].limbBits i := by
  rw [State.limb, if_pos h]

theorem limb_of_allDefined {s : State maxLimbs} {r : Reg} {i : Nat} (h : s.regs[r].allDefined = true)
    (hi : i < maxLimbs) : s.limb r i = s.regs[r].limbBits i :=
  limb_of_defd ((allDefined_iff _).1 h i hi)

theorem limbSum_congr {f g : Nat → Word} (n : Nat) (h : ∀ i < n, f i = g i) : limbSum f n = limbSum g n := by
  induction n with
  | zero => rfl
  | succ n ih => simp only [limbSum, h n (by omega), ih fun i hi => h i (by omega)]

theorem limbSum_lt (f : Nat → Word) (n : Nat) : limbSum f n < 2 ^ (32 * n) := by
  induction n with
  | zero => simp [limbSum]
  | succ n ih =>
    have h := (f n).isLt
    have e : (2 : Nat) ^ (32 * (n + 1)) = 2 ^ 32 * 2 ^ (32 * n) := by rw [← pow_add]; congr 1; omega
    have : (f n).toNat * 2 ^ (32 * n) + 2 ^ (32 * n) ≤ 2 ^ 32 * 2 ^ (32 * n) := by
      rw [← Nat.succ_mul]; exact Nat.mul_le_mul_right _ h
    simp only [limbSum]; omega

/-- The limbs of a number add up to the number (R21, R23). -/
theorem limbSum_digits (m n : Nat) : limbSum (fun i => BitVec.ofNat 32 (m / 2 ^ (32 * i))) n = m % 2 ^ (32 * n) := by
  induction n with
  | zero => simp [limbSum, Nat.mod_one]
  | succ n ih =>
    have e : (2 : Nat) ^ (32 * (n + 1)) = 2 ^ (32 * n) * 2 ^ 32 := by rw [← pow_add]; congr 1
    simp only [limbSum, ih, BitVec.toNat_ofNat, e]
    rw [Nat.mod_mul]; ring

theorem limbSum_eq_sum (f : Nat → Word) (n : Nat) :
    limbSum f n = ∑ i ∈ Finset.range n, (f i).toNat * 2 ^ (32 * i) := by
  induction n with
  | zero => rfl
  | succ n ih => rw [Finset.sum_range_succ, ← ih]; rfl

/-- Where every limb is stored, the sum of R21 is the stored number. -/
theorem limbSum_limb_of_allDefined {s : State maxLimbs} {r : Reg} (h : s.regs[r].allDefined = true) :
    limbSum (s.limb r) maxLimbs = s.regs[r].mag.toNat := by
  rw [limbSum_congr _ fun i hi => (limb_of_allDefined h hi).trans (limbBits_eq_ofNat _ i), limbSum_digits]
  exact Nat.mod_eq_of_lt (maxBits_eq maxLimbs ▸ s.regs[r].mag.isLt)

/-- `mag(r)` is the sum of R21, whichever way it is found. -/
theorem magnitude_eq_limbSum (s : State maxLimbs) (r : Reg) : s.magnitude r = limbSum (s.limb r) maxLimbs := by
  unfold State.magnitude
  split
  · rename_i h; exact (limbSum_limb_of_allDefined h).symm
  · rfl

theorem magnitude_le (s : State maxLimbs) (r : Reg) : s.magnitude r ≤ Config.maxMag maxLimbs := by
  rw [magnitude_eq_limbSum, le_maxMag_iff, maxBits_eq]; exact limbSum_lt _ _

theorem val_natAbs (s : State maxLimbs) (r : Reg) : (s.val r).natAbs = s.magnitude r := by
  unfold State.val; split <;> simp

/-- Every value a register holds is within capacity (R21, R22). -/
theorem val_natAbs_le (s : State maxLimbs) (r : Reg) : (s.val r).natAbs ≤ Config.maxMag maxLimbs := by
  rw [val_natAbs]; exact magnitude_le s r

/-- A register's value depends on its storage, its sign bit and the power-on contents alone. -/
theorem magnitude_congr {s t : State maxLimbs} {r : Reg} (h : t.regs[r] = s.regs[r]) (hk : t.powerOns = s.powerOns) :
    t.magnitude r = s.magnitude r := by
  rw [magnitude_eq_limbSum, magnitude_eq_limbSum]
  exact limbSum_congr _ fun i _ => by simp only [State.limb, h, hk]

theorem val_congr {s t : State maxLimbs} {r : Reg} (h : t.regs[r] = s.regs[r]) (hs : t.sgn r = s.sgn r)
    (hk : t.powerOns = s.powerOns) : t.val r = s.val r := by
  simp only [State.val, magnitude_congr h hk, hs]

/-- Limbs and sign bit determine the value: the value of a loaded register (R22, R67). -/
theorem val_of_limbs {s : State maxLimbs} {r : Reg} {v : Int} (hv : v.natAbs ≤ Config.maxMag maxLimbs)
    (hl : ∀ i < maxLimbs, s.limb r i = BitVec.ofNat 32 (v.natAbs / 2 ^ (32 * i)))
    (hs : s.sgn r = true ↔ v < 0) : s.val r = v := by
  have hm : s.magnitude r = v.natAbs := by
    rw [magnitude_eq_limbSum, limbSum_congr _ hl, limbSum_digits]
    rw [le_maxMag_iff, maxBits_eq] at hv
    exact Nat.mod_eq_of_lt hv
  unfold State.val
  rw [hm]
  split <;> rename_i h <;> rw [hs] at h <;> omega

/-! ### Sign bits -/

theorem setSignBit_getLsbD (sg : BitVec 8) (r r' : Reg) (b : Bool) :
    (setSignBit sg r b).getLsbD r' = if r' = r then b else sg.getLsbD r' := by
  have hr := r'.isLt
  cases b <;> simp only [setSignBit, Bool.false_eq_true, if_true, if_false, BitVec.getLsbD_or, BitVec.getLsbD_and,
    BitVec.getLsbD_not, BitVec.getLsbD_twoPow]
  all_goals
    by_cases h : r' = r
    · subst h; simp [hr]
    · have : ¬ r.val = r'.val := fun e => h (Fin.ext e.symm)
      simp [h, this]

/-! ### Writing one value -/

theorem writeVal_sgn (s : State maxLimbs) (r r' : Reg) (v : Int) :
    (s.writeVal r v).sgn r' = if r' = r then decide (v < 0) else s.sgn r' := by
  exact setSignBit_getLsbD _ _ _ _

theorem writeVal_regs_same (s : State maxLimbs) (r : Reg) (v : Int) :
    (s.writeVal r v).regs[r] = BigReg.ofMagnitude v.natAbs := by simp

theorem writeVal_regs_other (s : State maxLimbs) {r r' : Reg} (v : Int) (h : r' ≠ r) :
    (s.writeVal r v).regs[r'] = s.regs[r'] := by
  simp only [writeVal_regs, Fin.getElem_fin]
  exact Vector.getElem_set_ne _ _ fun e => h (Fin.ext e.symm)

theorem writeVal_limb_same (s : State maxLimbs) (r : Reg) {v : Int} (hv : v.natAbs ≤ Config.maxMag maxLimbs) {i : Nat}
    (hi : i < maxLimbs) : (s.writeVal r v).limb r i = BitVec.ofNat 32 (v.natAbs / 2 ^ (32 * i)) := by
  have h : (s.writeVal r v).regs[r].allDefined = true := by rw [writeVal_regs_same]; simp
  rw [limb_of_allDefined h hi, limbBits_eq_ofNat, writeVal_regs_same, ofMagnitude_toNat hv]

/-- The value a commit writes is the value the register then has (R22, R23). -/
theorem writeVal_val_same (s : State maxLimbs) (r : Reg) {v : Int} (hv : v.natAbs ≤ Config.maxMag maxLimbs) :
    (s.writeVal r v).val r = v :=
  val_of_limbs hv (fun _ hi => writeVal_limb_same s r hv hi) (by simp [writeVal_sgn])

/-- One value written leaves every other register as it was. -/
theorem writeVal_val_other (s : State maxLimbs) {r r' : Reg} (v : Int) (h : r' ≠ r) :
    (s.writeVal r v).val r' = s.val r' :=
  val_congr (writeVal_regs_other s v h) (by simp [writeVal_sgn, h]) rfl

/-! ### Canonical form -/

theorem bigReg_wf_iff (b : BigReg maxLimbs) :
    b.wf = true ↔ ∀ i < maxLimbs, b.defd.getLsbD i = true ∨ b.limbBits i = 0#32 := by
  simp [BigReg.wf, List.all_eq_true]

theorem ofMagnitude_wf (m : Nat) : (BigReg.ofMagnitude m : BigReg maxLimbs).wf = true := by
  rw [bigReg_wf_iff]; intro i hi; left; simp [BigReg.ofMagnitude, hi]

/-- A limb write keeps the canonical form. -/
theorem setLimb_wf {b : BigReg maxLimbs} (h : b.wf = true) (i : Nat) (v : Word) : (b.setLimb i v).wf = true := by
  rw [bigReg_wf_iff] at h ⊢
  intro j hj
  rw [setLimb_defd _ _ _ _ hj]
  by_cases e : i = j
  · left; simp [e]
  · rcases h j hj with h' | h'
    · left; simp [h']
    · right; rw [limbBits_setLimb_other _ _ _ _ hj e, h']

theorem memory_wf_iff (m : Memory maxLimbs) : m.wf = true ↔ ∀ r : Reg, m[r].wf = true := by
  simp only [Memory.wf, Vector.all_eq_true, Fin.getElem_fin]
  exact ⟨fun h r => h r.1 r.2, fun h i hi => h ⟨i, hi⟩⟩

/-- Every operation that writes the limb storage keeps its canonical form. -/
theorem memory_set_wf {m : Memory maxLimbs} (h : m.wf = true) (r : Reg) {b : BigReg maxLimbs} (hb : b.wf = true) :
    Memory.wf (m.set r b) = true := by
  rw [memory_wf_iff] at h ⊢
  intro r'
  simp only [Fin.getElem_fin, Vector.getElem_set]
  split
  · exact hb
  · exact h r'

theorem memory_powerOn_wf : (Memory.powerOn : Memory maxLimbs).wf = true := by
  rw [memory_wf_iff]
  intro r
  rw [bigReg_wf_iff]
  intro i _
  right
  simp [Memory.powerOn, BigReg.limbBits]

theorem writeVal_wf {s : State maxLimbs} (h : s.regs.wf = true) (r : Reg) (v : Int) : (s.writeVal r v).regs.wf = true :=
  memory_set_wf h r (ofMagnitude_wf _)

theorem writeLimb_wf {s : State maxLimbs} (h : s.regs.wf = true) (r : Reg) (i : Nat) (v : Word) :
    (s.writeLimb r i v).regs.wf = true :=
  memory_set_wf h r (setLimb_wf ((memory_wf_iff _).1 h r) i v)

end Sys2Proof.Machine
end

