-- ==== Sys2Proof/Laws/Ops.lean ====
section
/-! SUPPORT. What each shared operation of the command life cycle can do, once: the commit (`Completed`), the error
completion (`ErrorCompleted`), and the end of a command (`finish`). -/

namespace Sys2Proof.Machine

variable {maxLimbs : Nat}

/-! ### Writing several values -/

@[simp] theorem writeAll_nil (s : State maxLimbs) : s.writeAll [] = s := rfl

@[simp] theorem writeAll_cons (s : State maxLimbs) (p : Reg × Int) (V : List (Reg × Int)) :
    s.writeAll (p :: V) = (s.writeVal p.1 p.2).writeAll V := rfl

theorem writeAll_rest (s : State maxLimbs) (V : List (Reg × Int)) : SameRest s (s.writeAll V) := by
  induction V generalizing s with
  | nil => exact ⟨rfl, rfl, rfl, rfl, rfl⟩
  | cons p V ih => have h := ih (s.writeVal p.1 p.2); exact ⟨h.1, h.2, h.3, h.4, h.5⟩

theorem writeAll_status (s : State maxLimbs) (V : List (Reg × Int)) : (s.writeAll V).status = s.status := by
  induction V generalizing s with
  | nil => rfl
  | cons p V ih => simp [ih]

/-- Registers that no pair names keep their storage and their sign bit. -/
theorem writeAll_other (s : State maxLimbs) (V : List (Reg × Int)) {r : Reg} (h : r ∉ V.map Prod.fst) :
    (s.writeAll V).regs[r] = s.regs[r] ∧ (s.writeAll V).sgn r = s.sgn r := by
  induction V generalizing s with
  | nil => exact ⟨rfl, rfl⟩
  | cons p V ih =>
    simp only [List.map_cons, List.mem_cons, not_or] at h
    have := ih (s.writeVal p.1 p.2) h.2
    rw [writeVal_regs_other _ _ h.1, writeVal_sgn, if_neg h.1] at this
    exact this

/-- With distinct destinations, each ends as the one write to it leaves it. -/
theorem writeAll_mem (s : State maxLimbs) (V : List (Reg × Int)) (hd : (V.map Prod.fst).Nodup) {p : Reg × Int} (hp : p ∈ V) :
    (s.writeAll V).regs[p.1] = BigReg.ofMagnitude p.2.natAbs ∧ (s.writeAll V).sgn p.1 = decide (p.2 < 0) := by
  induction V generalizing s with
  | nil => cases hp
  | cons q V ih =>
    simp only [List.map_cons, List.nodup_cons] at hd
    rcases List.mem_cons.1 hp with e | hp
    · subst e
      have := writeAll_other (s.writeVal p.1 p.2) V hd.1
      rw [writeVal_regs_same, writeVal_sgn, if_pos rfl] at this
      exact this
    · exact ih (s.writeVal q.1 q.2) hd.2 hp

theorem writeAll_wf {s : State maxLimbs} (h : s.regs.wf = true) (V : List (Reg × Int)) : (s.writeAll V).regs.wf = true := by
  induction V generalizing s with
  | nil => exact h
  | cons p V ih => exact ih (writeVal_wf h _ _)

/-! ### Commit -/

@[simp] theorem commit_status (s : State maxLimbs) (V : List (Reg × Int)) (f : Flags) :
    (s.commit V f).status = { s.status with busy := false, done := true, err := false, errcode := 0#4 } := by
  rfl

/-- A commit of values that fit, to distinct destinations, is a successful completion. -/
theorem commit_completed (s : State maxLimbs) {V : List (Reg × Int)} (f : Flags) (hd : (V.map Prod.fst).Nodup)
    (hv : ∀ p ∈ V, p.2.natAbs ≤ Config.maxMag maxLimbs) : Completed s (s.commit V f) V := by
  have hm : ∀ p ∈ V, (s.commit V f).regs[p.1] = BigReg.ofMagnitude p.2.natAbs ∧
      (s.commit V f).sgn p.1 = decide (p.2 < 0) := fun p hp => writeAll_mem s V hd hp
  have hdef : ∀ p ∈ V, (s.commit V f).regs[p.1].allDefined = true := fun p hp => by
    rw [(hm p hp).1, ofMagnitude_allDefined]
  have hl : ∀ p ∈ V, ∀ i < maxLimbs,
      (s.commit V f).limb p.1 i = BitVec.ofNat 32 (p.2.natAbs / 2 ^ (32 * i)) := fun p hp i hi => by
    rw [limb_of_allDefined (hdef p hp) hi, limbBits_eq_ofNat, (hm p hp).1, ofMagnitude_toNat (hv p hp)]
  have hs : ∀ p ∈ V, ((s.commit V f).sgn p.1 = true ↔ p.2 < 0) := fun p hp => by rw [(hm p hp).2, decide_eq_true_iff]
  have hr := writeAll_rest s V
  exact {
    value := fun p hp => val_of_limbs (hv p hp) (hl p hp) (hs p hp)
    limbs := hl
    sign := hs
    defined := hdef
    others := fun r h =>
      have o := writeAll_other s V h
      ⟨o.1, o.2, val_congr o.1 o.2 hr.powerOns⟩
    status := commit_status s V f
    rest := ⟨hr.1, hr.2, hr.3, hr.4, hr.5⟩ }

/-- An error completion, with its code as a number. -/
theorem raiseError_errorCompleted (s : State maxLimbs) (e : ErrCode) : ErrorCompleted s (s.raiseError e) e.code.toNat :=
  ⟨by cases e <;> rfl, rfl, rfl, rfl, ⟨rfl, rfl, rfl, rfl, rfl⟩⟩

/-! ### Flags -/

theorem natAbs_mod_two (p : Int) : p.natAbs % 2 = 1 ↔ p % 2 = 1 := by omega

theorem ofPrimary_isPrimary (p : Int) : (Flags.ofPrimary p).IsPrimary p := by
  refine ⟨?_, ?_, ?_, rfl, rfl, rfl, rfl⟩ <;> simp [Flags.ofPrimary, natAbs_mod_two]

theorem ofPrimary_legal (p : Int) : (Flags.ofPrimary p).legal = true := by
  have h0 : p = 0 → ¬ p < 0 := by omega
  have h1 : p = 0 → ¬ p.natAbs % 2 = 1 := by rintro rfl; decide
  simp only [Flags.legal, Flags.ofPrimary, Flags.zero]
  by_cases h : p = 0
  · simp [h]
  · simp [h]

theorem ofCompare_legal (a b : Int) : (Flags.ofCompare a b).legal = true := by
  simp only [Flags.legal, Flags.ofCompare, Flags.zero]
  rcases lt_trichotomy a b with h | h | h
  · have h1 : ¬ a = b := by omega
    have h2 : ¬ b < a := by omega
    simp [h, h1, h2]
  · simp [h]
  · have h1 : ¬ a = b := by omega
    have h2 : ¬ a < b := by omega
    simp [h, h1, h2]

theorem ofPass_legal (p : Bool) : (Flags.ofPass p).legal = true := by cases p <;> rfl

/-! ### The end of a command -/

theorem fits_iff (V : List (Reg × Int)) : fits V maxLimbs = true ↔ ∀ p ∈ V, p.2.natAbs ≤ Config.maxMag maxLimbs := by
  simp only [fits, List.all_eq_true, decide_eq_true_eq]

theorem finish_ok {s : State maxLimbs} {V : List (Reg × Int)} {f : Flags} (h : ∀ p ∈ V, p.2.natAbs ≤ Config.maxMag maxLimbs) :
    s.finish (.ok V f) = s.commit V f := by rw [State.finish, if_pos ((fits_iff V).2 h)]

theorem finish_overflow {s : State maxLimbs} {V : List (Reg × Int)} {f : Flags} {p : Reg × Int} (hp : p ∈ V)
    (h : Config.maxMag maxLimbs < p.2.natAbs) : s.finish (.ok V f) = s.raiseError .capacityExceeded := by
  rw [State.finish, if_neg]
  rw [fits_iff]
  intro hall
  exact absurd (hall p hp) (by omega)

@[simp] theorem finish_err (s : State maxLimbs) (e : ErrCode) : s.finish (.err e) = s.raiseError e := rfl

/-- Everything `finish` can do: commit the values and flags of an `ok` result that fits, or complete with an error. -/
theorem finish_cases (s : State maxLimbs) (R : Result) :
    (∃ V f, R = .ok V f ∧ fits V maxLimbs = true ∧ s.finish R = s.commit V f) ∨
    (∃ V f, R = .ok V f ∧ fits V maxLimbs = false ∧ s.finish R = s.raiseError .capacityExceeded) ∨
    (∃ e, R = .err e ∧ s.finish R = s.raiseError e) := by
  cases R with
  | err e => exact .inr (.inr ⟨e, rfl, rfl⟩)
  | ok V f =>
    by_cases h : fits V maxLimbs = true
    · exact .inl ⟨V, f, rfl, h, by rw [State.finish, if_pos h]⟩
    · exact .inr (.inl ⟨V, f, rfl, by simpa using h, by rw [State.finish, if_neg h]⟩)

/-- A result with one destination that fits completes. -/
theorem finish_one (s : State maxLimbs) (d : Reg) {v : Int} (f : Flags) (h : v.natAbs ≤ Config.maxMag maxLimbs) :
    Completed s (s.finish (.ok [(d, v)] f)) [(d, v)] ∧ (s.finish (.ok [(d, v)] f)).flags = f := by
  have hv : ∀ p ∈ [(d, v)], p.2.natAbs ≤ Config.maxMag maxLimbs := by simpa using h
  rw [finish_ok hv]
  exact ⟨commit_completed s f (by simp) hv, rfl⟩

/-- A result with no destination completes. -/
theorem finish_none (s : State maxLimbs) (f : Flags) :
    Completed s (s.finish (.ok [] f)) [] ∧ (s.finish (.ok [] f)).flags = f := by
  have hv : ∀ p ∈ ([] : List (Reg × Int)), p.2.natAbs ≤ Config.maxMag maxLimbs := by simp
  rw [finish_ok hv]
  exact ⟨commit_completed s f (by simp) hv, rfl⟩

/-- One value above capacity ends with CAPACITY_EXCEEDED (R112, R216). -/
theorem finish_one_overflow (s : State maxLimbs) (d : Reg) {v : Int} (f : Flags) (h : Config.maxMag maxLimbs < v.natAbs) :
    ErrorCompleted s (s.finish (.ok [(d, v)] f)) 5 := by
  rw [finish_overflow (List.mem_singleton_self _) h]
  exact raiseError_errorCompleted s .capacityExceeded

end Sys2Proof.Machine
end

