-- ==== Sys2Proof/Laws/Arith.lean ====
section
/-! SUPPORT. The number-theoretic primitives meet their definitions in the spec: `bitLen` (R13), square-and-multiply
(R13, R170), the split `n - 1 = 2^s * d` (R181), EGCD_ALG, its coefficients and their bounds (R190, R191). -/

namespace Sys2Proof.Machine

/-! ### Bit length -/

theorem lt_two_pow_iff_bitLen_le (v k : Nat) : v < 2 ^ k ↔ bitLen v ≤ k := by
  unfold bitLen
  split
  · rename_i h; simp [h]
  · rename_i h; rw [← Nat.log2_lt h]; rfl

theorem lt_two_pow_bitLen (v : Nat) : v < 2 ^ bitLen v := (lt_two_pow_iff_bitLen_le v _).2 le_rfl

/-! ### Powers -/

theorem powModNat_eq (b m : Nat) : ∀ fuel e, e < 2 ^ fuel → powModNat b m fuel e = b ^ e % m := by
  intro fuel
  induction fuel with
  | zero => intro e h; obtain rfl : e = 0 := by simpa using h
            simp [powModNat]
  | succ fuel ih =>
    intro e h
    unfold powModNat
    by_cases h0 : e = 0
    · simp [h0]
    · have hh := ih (e / 2) (by rw [pow_succ] at h; omega)
      have he : e = e / 2 + e / 2 + e % 2 := by omega
      have hs : b ^ (e / 2) % m * (b ^ (e / 2) % m) % m = b ^ (e / 2 + e / 2) % m := by
        rw [← Nat.mul_mod, pow_add]
      simp only [h0, if_false, hh, hs]
      by_cases h1 : e % 2 = 1
      · simp only [h1, if_true]
        rw [Nat.mod_mul_mod, ← pow_succ]
        congr 2; omega
      · simp only [h1, if_false]
        congr 2; omega

/-- `powMod` is `emod(b^e, m)` (R13). -/
theorem powMod_eq (b : Int) {e m : Int} (hm : 0 < m) : powMod b e m = b ^ e.toNat % m := by
  unfold powMod
  rw [powModNat_eq _ _ _ _ (lt_two_pow_bitLen _)]
  have h1 : ((b % m).toNat : Int) = b % m := Int.toNat_of_nonneg (Int.emod_nonneg _ (by omega))
  have h2 : (m.toNat : Int) = m := Int.toNat_of_nonneg (by omega)
  push_cast
  rw [h1, h2]
  exact (Int.mod_modEq b m).pow _

/-! ### The split of a candidate -/

theorem twos_spec : ∀ fuel v, v ≠ 0 → v < 2 ^ fuel →
    v = 2 ^ twos fuel v * (v / 2 ^ twos fuel v) ∧ v / 2 ^ twos fuel v % 2 = 1 := by
  intro fuel
  induction fuel with
  | zero => intro v h0 h; simp at h; exact absurd h h0
  | succ fuel ih =>
    intro v h0 h
    unfold twos
    by_cases h2 : v % 2 = 0
    · have hv : v / 2 ≠ 0 := by omega
      obtain ⟨e1, e2⟩ := ih (v / 2) hv (by rw [pow_succ] at h; omega)
      rw [if_pos ⟨h2, h0⟩]
      have hd : v / 2 ^ (twos fuel (v / 2) + 1) = v / 2 / 2 ^ twos fuel (v / 2) := by
        rw [Nat.div_div_eq_div_mul, pow_succ, Nat.mul_comm]
      rw [hd]
      refine ⟨?_, e2⟩
      have : v = 2 * (v / 2) := by omega
      rw [pow_succ]
      calc v = 2 * (v / 2) := this
        _ = 2 * (2 ^ twos fuel (v / 2) * (v / 2 / 2 ^ twos fuel (v / 2))) := by rw [← e1]
        _ = _ := by ring
    · rw [if_neg (by omega)]
      simp; omega

/-- An odd part and a power of two determine each other. -/
theorem two_pow_mul_odd_unique {k k' d d' : Nat} (h : 2 ^ k * d = 2 ^ k' * d') (hd : d % 2 = 1) (hd' : d' % 2 = 1) :
    k = k' ∧ d = d' := by
  have key : ∀ {k k' d d' : Nat}, k ≤ k' → 2 ^ k * d = 2 ^ k' * d' → d % 2 = 1 → k = k' := by
    intro k k' d d' hle h hd
    obtain ⟨j, rfl⟩ := Nat.exists_eq_add_of_le hle
    rw [pow_add, Nat.mul_assoc] at h
    have h := Nat.eq_of_mul_eq_mul_left (Nat.two_pow_pos k) h
    cases j with
    | zero => rfl
    | succ j => rw [pow_succ] at h; rw [h, Nat.mul_comm (2 ^ j), Nat.mul_assoc, Nat.mul_mod_right] at hd; cases hd
  have hk : k = k' := by
    rcases Nat.le_total k k' with hle | hle
    · exact key hle h hd
    · exact (key hle h.symm hd').symm
  subst hk
  exact ⟨rfl, Nat.eq_of_mul_eq_mul_left (Nat.two_pow_pos k) h⟩

/-- `mrS` and `mrD` split `n - 1` as R181 says, for odd `n >= 3`. -/
theorem mr_split {n : Int} (hn : 3 ≤ n) (hodd : n % 2 = 1) :
    n - 1 = 2 ^ mrS n * mrD n ∧ mrD n % 2 = 1 ∧ 0 ≤ mrD n ∧ 1 ≤ mrS n := by
  obtain ⟨v, hv⟩ : ∃ v : Nat, n - 1 = v := ⟨(n - 1).toNat, by omega⟩
  have hv0 : v ≠ 0 := by omega
  obtain ⟨e1, e2⟩ := twos_spec (bitLen v) v hv0 (lt_two_pow_bitLen v)
  have hS : mrS n = twos (bitLen v) v := by simp [mrS, hv]
  have hD : mrD n = ((v / 2 ^ twos (bitLen v) v : Nat) : Int) := by simp [mrD, hS, hv]
  refine ⟨?_, ?_, ?_, ?_⟩
  · rw [hv, hD, hS]; exact_mod_cast e1
  · rw [hD]; exact_mod_cast e2
  · rw [hD]; exact Int.natCast_nonneg _
  · rw [hS]
    by_contra h0
    have h0 : twos (bitLen v) v = 0 := by omega
    rw [h0] at e2
    simp at e2; omega

theorem mr_split_unique {n : Int} {k d : Nat} (hn : 3 ≤ n) (hodd : n % 2 = 1) (h : n - 1 = 2 ^ k * d)
    (hd : d % 2 = 1) : mrS n = k ∧ mrD n = d := by
  obtain ⟨e1, e2, e3, -⟩ := mr_split hn hodd
  obtain ⟨d', hd'⟩ : ∃ d' : Nat, mrD n = d' := ⟨(mrD n).toNat, by omega⟩
  rw [hd'] at e1 e2 ⊢
  have : 2 ^ mrS n * d' = 2 ^ k * d := by
    have := e1.symm.trans h
    exact_mod_cast this
  obtain ⟨a, b⟩ := two_pow_mul_odd_unique this (by omega) hd
  exact ⟨a, by rw [b]⟩

/-- PASS as R181 writes it. -/
theorem mrPass_iff {n base : Int} {k d : Nat} (hn : 3 ≤ n) (hodd : n % 2 = 1) (h : n - 1 = 2 ^ k * d)
    (hd : d % 2 = 1) :
    mrPass n base = true ↔ base ^ d % n = 1 ∨ ∃ r < k, base ^ (d * 2 ^ r) % n = n - 1 := by
  obtain ⟨hS, hD⟩ := mr_split_unique hn hodd h hd
  have hp : ∀ e : Nat, powMod base (e : Int) n = base ^ e % n := fun e => by
    rw [powMod_eq base (by omega : 0 < n)]; simp
  have hp' : ∀ r : Nat, powMod base ((d : Int) * 2 ^ r) n = base ^ (d * 2 ^ r) % n := fun r => by
    rw [← hp]; push_cast; rfl
  simp only [mrPass, hS, hD, hp, hp', Bool.or_eq_true, beq_iff_eq, List.any_eq_true, List.mem_range]

/-! ### The extended Euclidean algorithm -/

/-- The loop is the relation of R190. -/
theorem egcdLoop_run : ∀ (fuel r0 r1 : Nat) (s0 s1 t0 t1 : Int), r1 < fuel →
    EuclidRun r0 r1 s0 s1 t0 t1 (egcdLoop fuel r0 r1 s0 s1 t0 t1).1 (egcdLoop fuel r0 r1 s0 s1 t0 t1).2.1
      (egcdLoop fuel r0 r1 s0 s1 t0 t1).2.2 := by
  intro fuel
  induction fuel with
  | zero => intro _ _ _ _ _ _ h; omega
  | succ fuel ih =>
    intro r0 r1 s0 s1 t0 t1 h
    unfold egcdLoop
    by_cases h0 : r1 = 0
    · subst h0; exact .stop _ _ _ _ _
    · rw [if_neg h0]
      have hlt : r0 - r0 / r1 * r1 < r1 := by
        have := Nat.mod_lt r0 (Nat.pos_of_ne_zero h0)
        have := Nat.div_add_mod' r0 r1
        omega
      have := ih r1 (r0 - r0 / r1 * r1) s1 (s0 - (r0 / r1 : Nat) * s1) t1 (t0 - (r0 / r1 : Nat) * t1) (by omega)
      refine .turn _ _ _ _ _ _ _ _ _ (by exact_mod_cast h0) ?_
      have hc : ((r0 - r0 / r1 * r1 : Nat) : Int) = (r0 : Int) - (r0 : Int) / r1 * r1 := by
        rw [Nat.cast_sub (Nat.div_mul_le_self r0 r1)]; push_cast; rfl
      rw [← hc]
      exact_mod_cast this

/-- The gcd and the Bézout equation are invariants of the loop (R190). -/
theorem EuclidRun.bezout {r0 r1 s0 s1 t0 t1 g x y : Int} (h : EuclidRun r0 r1 s0 s1 t0 t1 g x y) :
    ∀ a b : Int, a * s0 + b * t0 = r0 → a * s1 + b * t1 = r1 →
      a * x + b * y = g ∧ g.natAbs = Int.gcd r0 r1 := by
  induction h with
  | stop r0 s0 s1 t0 t1 => intro a b h0 _; exact ⟨h0, by simp⟩
  | turn r0 r1 s0 s1 t0 t1 g x y hne _ ih =>
    intro a b h0 h1
    obtain ⟨e1, e2⟩ := ih a b h1 (by rw [← h0, ← h1]; ring)
    refine ⟨e1, ?_⟩
    have hr : r0 - r0 / r1 * r1 = r0 % r1 := by rw [Int.emod_def, Int.mul_comm r1]
    rw [e2, hr, Int.gcd_comm r1, Int.gcd_emod]

/-- The two coefficient sequences play the same part. -/
theorem EuclidRun.swap {r0 r1 s0 s1 t0 t1 g x y : Int} (h : EuclidRun r0 r1 s0 s1 t0 t1 g x y) :
    EuclidRun r0 r1 t0 t1 s0 s1 g y x := by
  induction h with
  | stop r0 s0 s1 t0 t1 => exact .stop _ _ _ _ _
  | turn r0 r1 s0 s1 t0 t1 g x y hne _ ih => exact .turn _ _ _ _ _ _ _ _ _ hne ih

/-- The coefficients alternate in sign, so one step adds magnitudes. -/
theorem abs_sub_mul_of_alternating {p q k : Int} (hk : 0 ≤ k) (h : (0 ≤ p ∧ q ≤ 0) ∨ (p ≤ 0 ∧ 0 ≤ q)) :
    |p - k * q| = |p| + k * |q| := by
  rcases h with ⟨h1, h2⟩ | ⟨h1, h2⟩
  · have : k * q ≤ 0 := mul_nonpos_of_nonneg_of_nonpos hk h2
    rw [abs_of_nonneg (by omega), abs_of_nonneg h1, abs_of_nonpos h2]; ring
  · have : 0 ≤ k * q := mul_nonneg hk h2
    rw [abs_of_nonpos (by omega), abs_of_nonpos h1, abs_of_nonneg h2]; ring

/-- The first coefficient stays within the conserved weight `|s0| * r1 + |s1| * r0` (R191). -/
theorem EuclidRun.coefficient_le {r0 r1 s0 s1 t0 t1 g x y : Int} (h : EuclidRun r0 r1 s0 s1 t0 t1 g x y) :
    ∀ w : Int, 0 ≤ r0 → 0 ≤ r1 → ((0 ≤ s0 ∧ s1 ≤ 0) ∨ (s0 ≤ 0 ∧ 0 ≤ s1)) → |s0| * r1 + |s1| * r0 = w →
      |s0| ≤ max |s1| 1 → (r1 ≤ r0 ∨ |s1| ≤ 1) → (0 < r0 ∨ |s0| ≤ 1) → |x| ≤ max w 1 := by
  induction h with
  | stop r0 s0 s1 t0 t1 =>
    intro w hr0 _ _ hw hs _ hz
    rcases hz with hz | hz
    · have : |s1| ≤ |s1| * r0 := le_mul_of_one_le_right (abs_nonneg _) (by omega)
      exact hs.trans (max_le_max (by omega) le_rfl)
    · exact hz.trans (le_max_right _ _)
  | turn r0 r1 s0 s1 t0 t1 g x y hne _ ih =>
    intro w hr0 hr1 hsgn hw hs hq _
    have hpos : 0 < r1 := by omega
    have hk : 0 ≤ r0 / r1 := Int.ediv_nonneg hr0 hr1
    have hr : r0 - r0 / r1 * r1 = r0 % r1 := by rw [Int.emod_def, Int.mul_comm r1]
    have ha := abs_sub_mul_of_alternating hk hsgn
    have hn1 := abs_nonneg s0
    have hn2 := abs_nonneg s1
    refine ih w hr1 (hr ▸ Int.emod_nonneg _ hne) ?_ ?_ ?_ (.inl ?_) (.inl hpos)
    · rcases hsgn with ⟨h1, h2⟩ | ⟨h1, h2⟩
      · right; exact ⟨h2, by have := mul_nonpos_of_nonneg_of_nonpos hk h2; omega⟩
      · left; exact ⟨h2, by have := mul_nonneg hk h2; omega⟩
    · rw [ha, ← hw]; ring
    · rw [ha]
      rcases hq with hq | hq
      · have h1 : 1 ≤ r0 / r1 := by rw [Int.le_ediv_iff_mul_le hpos]; omega
        have : |s1| ≤ r0 / r1 * |s1| := le_mul_of_one_le_left hn2 h1
        exact le_max_of_le_left (by omega)
      · exact le_max_of_le_right hq
    · rw [hr]; exact (Int.emod_lt_of_pos _ hpos).le

theorem egcdAlg_run (a b : Int) : ∃ x y, EuclidRun a.natAbs b.natAbs 1 0 0 1 (egcdAlg a b).1 x y ∧
    (egcdAlg a b).2.1 = (if 0 ≤ a then x else -x) ∧ (egcdAlg a b).2.2 = (if 0 ≤ b then y else -y) :=
  ⟨_, _, egcdLoop_run (b.natAbs + 1) a.natAbs b.natAbs 1 0 0 1 (by omega), rfl, rfl⟩

/-- EGCD_ALG returns the gcd and Bézout coefficients (R190). -/
theorem egcdAlg_spec (a b : Int) : (egcdAlg a b).1 = Int.gcd a b ∧
    a * (egcdAlg a b).2.1 + b * (egcdAlg a b).2.2 = (egcdAlg a b).1 := by
  obtain ⟨x, y, h, hx, hy⟩ := egcdAlg_run a b
  obtain ⟨e1, e2⟩ := h.bezout a.natAbs b.natAbs (by ring) (by ring)
  have hg : 0 ≤ (egcdAlg a b).1 := Int.natCast_nonneg _
  refine ⟨?_, ?_⟩
  · have hab : Int.gcd (a.natAbs : Int) (b.natAbs : Int) = Int.gcd a b := by
      simp only [Int.gcd, Int.natAbs_natCast]
    rw [← hab, ← e2]; omega
  · rw [hx, hy, ← e1]
    have ha : (if 0 ≤ a then x else -x) * a = a.natAbs * x := by
      split
      · rw [Int.natAbs_of_nonneg ‹_›]; ring
      · rw [Int.ofNat_natAbs_of_nonpos (by omega)]; ring
    have hb : (if 0 ≤ b then y else -y) * b = b.natAbs * y := by
      split
      · rw [Int.natAbs_of_nonneg ‹_›]; ring
      · rw [Int.ofNat_natAbs_of_nonpos (by omega)]; ring
    rw [Int.mul_comm a, Int.mul_comm b, ha, hb]

/-! ### Results that fit a register -/

/-- A remainder is smaller than its divisor (R155). -/
theorem emod_fits (a : Int) {b : Int} (h0 : b ≠ 0) (hb : b.natAbs ≤ Config.maxMag) :
    (a % b).natAbs ≤ Config.maxMag := by
  have h1 := Int.emod_nonneg a h0
  have h2 := Int.emod_lt a h0
  omega

/-- A quotient is no larger than its dividend (R155). -/
theorem ediv_fits {a : Int} (b : Int) (ha : a.natAbs ≤ Config.maxMag) : (a / b).natAbs ≤ Config.maxMag :=
  (Int.natAbs_ediv_le_natAbs _ _).trans ha

theorem gcd_fits {a b : Int} (ha : a.natAbs ≤ Config.maxMag) (hb : b.natAbs ≤ Config.maxMag) :
    ((Int.gcd a b : Nat) : Int).natAbs ≤ Config.maxMag := by
  rw [Int.natAbs_natCast]
  by_cases h : a = 0
  · rw [h, Int.gcd_zero_left]; exact hb
  · exact (Nat.le_of_dvd (by omega) (Int.gcd_dvd_natAbs_left _ _)).trans ha

/-- A bit length is at most MAXBITS (R130). -/
theorem bitLen_le_maxBits {maxLimbs n : Nat} (h : n ≤ Config.maxMag maxLimbs) : bitLen n ≤ Config.maxBits maxLimbs :=
  (lt_two_pow_iff_bitLen_le n _).1 ((le_maxMag_iff n).1 h)

/-- On this hardware, at most 16384 (R130). -/
theorem bitLen_le {n : Nat} (h : n ≤ Config.maxMag) : bitLen n ≤ 16384 := bitLen_le_maxBits h

theorem bitLen_fits {n : Nat} (h : n ≤ Config.maxMag) : ((bitLen n : Nat) : Int).natAbs ≤ Config.maxMag := by
  have hb := bitLen_le h
  exact le_maxMag_of_small (by rw [Int.natAbs_natCast]; omega)

theorem le_maxMag_of_le_max_one {n m : Nat} (h : n ≤ max m 1) (hm : m ≤ Config.maxMag) : n ≤ Config.maxMag :=
  h.trans (max_le hm (le_maxMag_of_small (by decide)))

/-- The result of EGCD fits a register whenever its operands do (R191). -/
theorem egcdAlg_fits {a b : Int} (ha : a.natAbs ≤ Config.maxMag) (hb : b.natAbs ≤ Config.maxMag) :
    (egcdAlg a b).1.natAbs ≤ Config.maxMag ∧ (egcdAlg a b).2.1.natAbs ≤ Config.maxMag ∧
      (egcdAlg a b).2.2.natAbs ≤ Config.maxMag := by
  obtain ⟨x, y, h, hx, hy⟩ := egcdAlg_run a b
  have h1 := h.coefficient_le b.natAbs (by omega) (by omega) (by omega) (by simp) (by simp) (by simp) (by simp)
  have h2 := h.swap.coefficient_le a.natAbs (by omega) (by omega) (by omega) (by simp) (by simp) (by simp) (by simp)
  rw [Int.abs_eq_natAbs] at h1 h2
  rw [hx, hy, (egcdAlg_spec a b).1]
  refine ⟨gcd_fits ha hb, ?_, ?_⟩
  · have : (if 0 ≤ a then x else -x).natAbs = x.natAbs := by split <;> simp
    exact le_maxMag_of_le_max_one (m := b.natAbs) (by omega) hb
  · have : (if 0 ≤ b then y else -y).natAbs = y.natAbs := by split <;> simp
    exact le_maxMag_of_le_max_one (m := a.natAbs) (by omega) ha

end Sys2Proof.Machine
end

