-- ==== Sys2Proof/Laws/Bus.lean ====
section
/-! SUPPORT. What a host access does, once: where an offset lies (20_memory.md R63, R65), what a legal or a bad access
answers (R62), and which state a write can change (R66 to R70). -/

namespace Sys2Proof.Machine

/-! ### The address map -/

/-- Everything `locate` can answer. -/
theorem locate_limb {off : Offset} (h1 : 0x1000 ≤ off.toNat) (h2 : off.toNat < 0x5000) :
    ∃ (r : Reg) (i : Fin Config.maxLimbs), locate off = .limb r i ∧ r.val = (off.toNat - 0x1000) / 0x800 ∧
      i.val = (off.toNat - 0x1000) % 0x800 / 4 := by
  unfold locate
  split <;> first | omega | skip
  rw [dif_pos ⟨h1, h2⟩]
  exact ⟨_, _, rfl, rfl, rfl⟩

theorem locate_limb_inv {off : Offset} {r : Reg} {i : Fin Config.maxLimbs} (h : locate off = .limb r i) :
    0x1000 + 0x800 * r.val ≤ off.toNat ∧ off.toNat < 0x1800 + 0x800 * r.val ∧
      i.val = (off.toNat - 0x1000) % 0x800 / 4 := by
  unfold locate at h
  split at h <;> first | cases h | skip
  split at h
  · rename_i hw
    have hw : 0x1000 ≤ off.toNat ∧ off.toNat < 0x5000 := hw
    cases h
    change 0x1000 + 0x800 * ((off.toNat - 0x1000) / 0x800) ≤ off.toNat ∧
      off.toNat < 0x1800 + 0x800 * ((off.toNat - 0x1000) / 0x800) ∧ _
    exact ⟨by omega, by omega, rfl⟩
  · cases h

theorem locate_sign_inv {off : Offset} (h : locate off = .sign) : off = 0x018#15 := by
  unfold locate at h
  split at h <;> first | cases h | skip
  · exact BitVec.eq_of_toNat_eq ‹_›
  · split at h <;> cases h

theorem locate_ctrl_inv {off : Offset} (h : locate off = .ctrl) : off = 0x008#15 := by
  unfold locate at h
  split at h <;> first | cases h | skip
  · exact BitVec.eq_of_toNat_eq ‹_›
  · split at h <;> cases h

theorem locate_status_inv {off : Offset} (h : locate off = .status) : off = 0x00C#15 := by
  unfold locate at h
  split at h <;> first | cases h | skip
  · exact BitVec.eq_of_toNat_eq ‹_›
  · split at h <;> cases h

theorem locate_cmd_inv {off : Offset} (h : locate off = .cmd) : off = 0x010#15 := by
  unfold locate at h
  split at h <;> first | cases h | skip
  · exact BitVec.eq_of_toNat_eq ‹_›
  · split at h <;> cases h

theorem locate_reserved {off : Offset} (h4 : off.toNat % 4 = 0)
    (h : (0x01C ≤ off.toNat ∧ off.toNat < 0x1000) ∨ 0x5000 ≤ off.toNat) : locate off = .reserved := by
  unfold locate
  split <;> first | omega | skip
  exact dif_neg (show ¬(0x1000 ≤ off.toNat ∧ off.toNat < 0x5000) by omega)

@[simp] theorem locate_id : locate 0x000#15 = .id := rfl
@[simp] theorem locate_param : locate 0x004#15 = .param := rfl
@[simp] theorem locate_ctrl : locate 0x008#15 = .ctrl := rfl
@[simp] theorem locate_status : locate 0x00C#15 = .status := rfl
@[simp] theorem locate_cmd : locate 0x010#15 = .cmd := rfl
@[simp] theorem locate_flags : locate 0x014#15 = .flags := rfl
@[simp] theorem locate_sign : locate 0x018#15 = .sign := rfl

/-- Every limb lies at its offset (R63, R65). -/
theorem locate_limbOffset (r : Reg) (i : Fin Config.maxLimbs) :
    locate (BitVec.ofNat 15 (0x1000 + 0x800 * r.val + 4 * i.val)) = .limb r i := by
  have hr : r.val < 8 := r.isLt
  have hi : i.val < 512 := i.isLt
  have ht : (BitVec.ofNat 15 (0x1000 + 0x800 * r.val + 4 * i.val)).toNat = 0x1000 + 0x800 * r.val + 4 * i.val := by
    rw [BitVec.toNat_ofNat]; exact Nat.mod_eq_of_lt (by omega)
  obtain ⟨r', i', h, h1, h2⟩ := locate_limb (off := BitVec.ofNat 15 (0x1000 + 0x800 * r.val + 4 * i.val))
    (by omega) (by omega)
  rw [h, ht] at *
  congr 1
  · exact Fin.ext (by omega)
  · exact Fin.ext (by omega)

/-! ### Accesses -/

variable {maxLimbs : Nat}


theorem access_read {off : Offset} (s : State maxLimbs) (h : accessOk off (.read .w32) = true) :
    s.access off (.read .w32) = { s with response := some (.readData (s.readLocation (locate off maxLimbs))) } := by
  simp only [State.access, h, if_true]

theorem access_write {off : Offset} (s : State maxLimbs) {v : Word} (h : accessOk off (.write .w32 v) = true) :
    s.access off (.write .w32 v) = { s.writeLocation v (locate off maxLimbs) with response := some .written } := by
  simp only [State.access, h, if_true]

theorem accessOk_iff {off : Offset} {op : HostOp} : accessOk off op = true ↔ op.width = .w32 ∧ off.toNat % 4 = 0 := by
  simp [accessOk]

/-- A read changes the answer and nothing else (R70). -/
theorem access_of_read (s : State maxLimbs) (off : Offset) (w : Width) :
    ∃ e, s.access off (.read w) = { s with response := some e } := by
  unfold State.access
  split <;> exact ⟨_, rfl⟩

/-- Everything a write of a location can do to the state (R29 to R33, R66 to R68). -/
theorem writeLocation_cases (s : State maxLimbs) (v : Word) (l : Location maxLimbs) :
    (l = .ctrl ∧ s.writeLocation v l = s.writeCtrl v) ∨
    (l = .status ∧ s.writeLocation v l = s.acknowledge v) ∨
    (l = .cmd ∧ s.status.busy = false ∧ s.writeLocation v l = s.accept v) ∨
    (l = .sign ∧ s.status.busy = false ∧ s.writeLocation v l = { s with sign := v.setWidth 8 }) ∨
    (∃ r i, l = .limb r i ∧ s.status.busy = false ∧ s.writeLocation v l = s.writeLimb r i v) ∨
    (s.status.busy = true ∧ s.writeLocation v l = s.refuseWrite) ∨
    (s.writeLocation v l = s) := by
  cases hb : s.status.busy <;> cases l <;> simp [State.writeLocation, hb]

/-- Everything a CTRL write can do (R29, R226, R251, R253). -/
theorem writeCtrl_cases (s : State maxLimbs) (v : Word) :
    (v.getLsbD 2 = true ∧ s.writeCtrl v = s.softReset) ∨
    (v.getLsbD 2 = false ∧ v.getLsbD 1 = true ∧ s.status.busy = true ∧
      s.writeCtrl v = State.raiseError { s with ctrl := ⟨v.getLsbD 0⟩ } .aborted) ∨
    (v.getLsbD 2 = false ∧ (v.getLsbD 1 = false ∨ s.status.busy = false) ∧
      s.writeCtrl v = { s with ctrl := ⟨v.getLsbD 0⟩ }) := by
  unfold State.writeCtrl State.abort
  cases h2 : v.getLsbD 2 <;> cases h1 : v.getLsbD 1 <;> cases hb : s.status.busy <;> simp [hb]

/-- Everything an access can do: answer without effect, or a legal write's effect. -/
theorem access_cases (s : State maxLimbs) (off : Offset) (op : HostOp) :
    (∃ e, s.access off op = { s with response := some e }) ∨
    (∃ v, op = .write .w32 v ∧ off.toNat % 4 = 0 ∧
      s.access off op = { s.writeLocation v (locate off maxLimbs) with response := some .written }) := by
  cases op with
  | read w => exact .inl (access_of_read s off w)
  | write w v =>
    by_cases h : accessOk off (.write w v) = true
    · obtain ⟨h1, h2⟩ := accessOk_iff.1 h
      obtain rfl : w = .w32 := h1
      exact .inr ⟨v, rfl, h2, access_write s h⟩
    · left; unfold State.access; rw [if_neg h]; exact ⟨_, rfl⟩

theorem route_eq_some {addr : Nat} {off : Offset} (h : route addr = some off) :
    addr = Config.coreBase + off.toNat := by
  unfold route at h
  split at h
  · rename_i hb
    cases h
    have hw : Config.window = 0x8000 := rfl
    rw [BitVec.toNat_ofNat]
    omega
  · cases h

theorem route_window (off : Offset) : route (Config.coreBase + off.toNat) = some off := by
  have h := off.isLt
  have hw : Config.window = 0x8000 := rfl
  unfold route
  rw [if_pos (by omega), Nat.add_sub_cancel_left]
  simp

theorem route_outside {addr : Nat} (h : addr < Config.coreBase ∨ Config.coreBase + 0x8000 ≤ addr) :
    route addr = none := by
  have hw : Config.window = 0x8000 := rfl
  unfold route
  rw [if_neg (by omega)]

/-- Everything a bus access can do: nothing, or a port access at its offset (R61). -/
theorem busAccess_cases (s : State maxLimbs) (addr : Nat) (op : HostOp) :
    (s.busAccess addr op = s ∧ route addr = none) ∨
    ∃ off, route addr = some off ∧ s.busAccess addr op = s.access off op := by
  unfold State.busAccess
  cases h : route addr with
  | none => exact .inl ⟨rfl, rfl⟩
  | some off => exact .inr ⟨off, rfl, rfl⟩

end Sys2Proof.Machine
end

