-- ==== Sys2Proof/Laws/Step.lean ====
section
/-! SUPPORT. Everything a step can do, said once: what every arm of `exec` does, the cases of `step`, and which
operations keep the invariant. -/

namespace Sys2Proof.Machine

/-! ### Commands -/

/-- At this hardware's capacity the general dispatch is `exec`, arm for arm (R8). -/
theorem execAt_eq_exec : execAt (maxLimbs := Config.maxLimbs) = exec := by
  funext i s; cases i <;> rfl

/-- At any capacity, every command ends in `finish` of some result; a result that is no error names exactly the
command's destinations, has legal flags, and comes only from a well-formed command. -/
theorem execAt_finish (i : Instr) {maxLimbs : Nat} (s : State maxLimbs) :
    ∃ R, execAt i s = .next (s.finish R) ∧
      ∀ V f, R = .ok V f → V.map Prod.fst = i.dests ∧ f.legal = true ∧ i.wellFormed = true := by
  cases i <;> refine ⟨_, rfl, ?_⟩ <;> intro V f h
  case ldi => cases h; exact ⟨rfl, ofPrimary_legal _, rfl⟩
  case mov => cases h; exact ⟨rfl, ofPrimary_legal _, rfl⟩
  case add => cases h; exact ⟨rfl, ofPrimary_legal _, rfl⟩
  case sub => cases h; exact ⟨rfl, ofPrimary_legal _, rfl⟩
  case cmp => cases h; exact ⟨rfl, ofCompare_legal _ _, rfl⟩
  case tst => cases h; exact ⟨rfl, ofPrimary_legal _, rfl⟩
  case bitlen => cases h; exact ⟨rfl, ofPrimary_legal _, rfl⟩
  case mul => cases h; exact ⟨rfl, ofPrimary_legal _, rfl⟩
  case divmod d0 d1 s0 s1 =>
    unfold divResult at h
    split at h
    · cases h
    · rename_i hne
      split at h
      · cases h
      · cases h; exact ⟨rfl, ofPrimary_legal _, by simp [Instr.wellFormed, Instr.dests, hne]⟩
  case div =>
    unfold divResult at h
    split at h <;> cases h
    exact ⟨rfl, ofPrimary_legal _, rfl⟩
  case mod =>
    unfold divResult at h
    split at h <;> cases h
    exact ⟨rfl, ofPrimary_legal _, rfl⟩
  case modmul => split at h <;> cases h; exact ⟨rfl, ofPrimary_legal _, rfl⟩
  case modexp =>
    split at h
    · cases h
    · split at h <;> cases h
      exact ⟨rfl, ofPrimary_legal _, rfl⟩
  case mrround =>
    split at h
    · cases h
    · split at h <;> cases h
      exact ⟨rfl, ofPass_legal _, rfl⟩
  case egcd d0 d1 d2 s0 s1 =>
    split at h
    · cases h
    · rename_i hne
      cases h
      simp only [not_or] at hne
      exact ⟨rfl, ofPrimary_legal _, by simp [Instr.wellFormed, Instr.dests, hne]⟩
  case gcd => cases h; exact ⟨rfl, ofPrimary_legal _, rfl⟩
  case modinv =>
    split at h
    · cases h
    · split at h <;> cases h
      exact ⟨rfl, ofPrimary_legal _, rfl⟩

theorem exec_finish (i : Instr) (s : State) :
    ∃ R, exec i s = .next (s.finish R) ∧
      ∀ V f, R = .ok V f → V.map Prod.fst = i.dests ∧ f.legal = true ∧ i.wellFormed = true := by
  rw [← execAt_eq_exec]; exact execAt_finish i s

/-- Everything a command can do: commit values to its destinations with legal flags, or complete with an error. -/
theorem exec_cases {i : Instr} {s t : State} (h : exec i s = .next t) :
    (∃ V f, V.map Prod.fst = i.dests ∧ i.wellFormed = true ∧ f.legal = true ∧ fits V = true ∧ t = s.commit V f) ∨
    (∃ e, t = s.raiseError e) := by
  obtain ⟨R, hR, hok⟩ := exec_finish i s
  rw [hR] at h
  cases h
  rcases finish_cases s R with ⟨V, f, e, hf, hc⟩ | ⟨V, f, e, hf, hc⟩ | ⟨e, he, hc⟩
  · obtain ⟨h1, h2, h3⟩ := hok V f e
    exact .inl ⟨V, f, h1, h3, h2, hf, hc⟩
  · exact .inr ⟨_, hc⟩
  · exact .inr ⟨_, hc⟩

theorem exec_next (i : Instr) (s : State) : ∃ t, exec i s = .next t :=
  have ⟨_, h, _⟩ := exec_finish i s
  ⟨_, h⟩

/-! ### The step -/

/-- At this hardware's capacity the general step is `step` (R8). -/
theorem stepAt_eq_step (s : State) : stepAt s = step s := by
  unfold stepAt step; rw [execAt_eq_exec]

/-- The state a step's event takes place in: the event is off the agenda. -/
abbrev State.popped (s : State) : State := { s with agenda := s.agenda.tail }

/-- A host access of this step, at the port or on the bus inside the window, is at offset `off`. -/
def AccessAt (s : State) (off : Offset) (op : HostOp) : Prop :=
  nextEvent s = .port off op ∨ ∃ addr, nextEvent s = .bus addr op ∧ route addr = some off

/-- Everything a step can do. -/
theorem step_cases {s t : State} (h : step s = .next t) :
    (nextEvent s = .complete ∧ s.status.busy = false ∧ t = s.popped) ∨
    (nextEvent s = .complete ∧ s.status.busy = true ∧ ∃ i, decode s.cmdLast = .ok i ∧ exec i s.popped = .next t) ∨
    (nextEvent s = .complete ∧ s.status.busy = true ∧ (∃ e, decode s.cmdLast = .error e) ∧
      t = s.popped.raiseError .illegalCommand) ∨
    (∃ off op, AccessAt s off op ∧ t = s.popped.access off op) ∨
    (∃ addr op, nextEvent s = .bus addr op ∧ route addr = none ∧ t = s.popped) ∨
    (nextEvent s = .powerOn ∧ t = s.popped.powerOnReset) := by
  unfold step applyEvent at h
  cases he : nextEvent s with
  | port off op =>
    rw [he] at h
    cases h
    exact .inr (.inr (.inr (.inl ⟨off, op, .inl he, rfl⟩)))
  | bus addr op =>
    rw [he] at h
    cases h
    rcases busAccess_cases s.popped addr op with ⟨h1, h2⟩ | ⟨off, h1, h2⟩
    · exact .inr (.inr (.inr (.inr (.inl ⟨addr, op, rfl, h2, h1⟩))))
    · exact .inr (.inr (.inr (.inl ⟨off, op, .inr ⟨addr, he, h1⟩, h2⟩)))
  | powerOn =>
    rw [he] at h
    cases h
    exact .inr (.inr (.inr (.inr (.inr ⟨rfl, rfl⟩))))
  | complete =>
    rw [he] at h
    dsimp only [sequencerTurn] at h
    cases hb : s.status.busy with
    | false =>
      rw [hb] at h
      cases h
      exact .inl ⟨rfl, rfl, rfl⟩
    | true =>
      rw [hb, if_pos rfl] at h
      unfold completeCommand State.currentCommand at h
      cases hd : decode s.cmdLast with
      | ok i =>
        rw [show ({ s with agenda := s.agenda.tail } : State).cmdLast = s.cmdLast from rfl, hd] at h
        exact .inr (.inl ⟨rfl, rfl, i, rfl, h⟩)
      | error e =>
        rw [show ({ s with agenda := s.agenda.tail } : State).cmdLast = s.cmdLast from rfl, hd] at h
        cases h
        exact .inr (.inr (.inl ⟨rfl, rfl, ⟨e, rfl⟩, rfl⟩))

/-- The step on the sequencer's turn, by BUSY and by the word in CMDLAST. -/
theorem step_complete_idle {s : State} (he : nextEvent s = .complete) (hb : s.status.busy = false) :
    step s = .next s.popped := by
  unfold step applyEvent; rw [he]; dsimp only [sequencerTurn]; rw [hb]; rfl

theorem step_complete_ok {s : State} {i : Instr} (he : nextEvent s = .complete) (hb : s.status.busy = true)
    (hd : decode s.cmdLast = .ok i) : step s = exec i s.popped := by
  unfold step applyEvent; rw [he]
  simp only [sequencerTurn, hb, if_true, completeCommand, State.currentCommand, hd]

theorem step_complete_error {s : State} {e : Illegal} (he : nextEvent s = .complete) (hb : s.status.busy = true)
    (hd : decode s.cmdLast = .error e) : step s = .next (s.popped.raiseError .illegalCommand) := by
  unfold step applyEvent; rw [he]
  simp only [sequencerTurn, hb, if_true, completeCommand, State.currentCommand, hd]

theorem step_port {s : State} {off : Offset} {op : HostOp} {rest : List Event} (h : s.agenda = .port off op :: rest) :
    step s = .next (State.access { s with agenda := rest } off op) := by
  unfold step nextEvent; rw [h]; rfl

theorem step_bus {s : State} {addr : Nat} {op : HostOp} {rest : List Event} (h : s.agenda = .bus addr op :: rest) :
    step s = .next (State.busAccess { s with agenda := rest } addr op) := by
  unfold step nextEvent; rw [h]; rfl

theorem step_powerOn {s : State} {rest : List Event} (h : s.agenda = .powerOn :: rest) :
    step s = .next (State.powerOnReset { s with agenda := rest }) := by
  unfold step nextEvent; rw [h]; rfl

theorem nextEvent_complete {s : State} (h : s.agenda.head? = some .complete ∨ s.agenda = []) :
    nextEvent s = .complete := by
  unfold nextEvent
  rcases h with h | h
  · cases ha : s.agenda with
    | nil => rfl
    | cons e es => rw [ha] at h; simpa using h
  · rw [h]; rfl

theorem step_port_next {s : State} {off : Offset} {op : HostOp} (h : nextEvent s = .port off op) :
    ∃ rest, s.agenda = .port off op :: rest := by
  unfold nextEvent at h
  cases ha : s.agenda with
  | nil => rw [ha] at h; cases h
  | cons e es => rw [ha] at h; exact ⟨es, by simpa using h⟩

/-- The machine never stops, at any capacity: every event has an effect (R263). -/
theorem stepAt_next {maxLimbs : Nat} (s : State maxLimbs) : ∃ t, stepAt s = .next t := by
  unfold stepAt applyEvent
  split
  · exact ⟨_, rfl⟩
  · exact ⟨_, rfl⟩
  · unfold sequencerTurn
    split
    · unfold completeCommand
      split
      · obtain ⟨R, h, _⟩ := execAt_finish _ _
        exact ⟨_, h⟩
      · exact ⟨_, rfl⟩
    · exact ⟨_, rfl⟩
  · exact ⟨_, rfl⟩

theorem step_next (s : State) : ∃ t, step s = .next t := by
  rw [← stepAt_eq_step]; exact stepAt_next s

/-! ### Operations that keep the invariant -/

theorem inv_raiseError {s : State} (h : s.Inv) (e : ErrCode) : (s.raiseError e).Inv :=
  ⟨h.wf, by cases e <;> simp [ErrCode.code], by cases e <;> simp [ErrCode.code], by simp, h.flags⟩

theorem inv_commit {s : State} (h : s.Inv) (V : List (Reg × Int)) {f : Flags} (hf : f.legal = true) :
    (s.commit V f).Inv :=
  ⟨writeAll_wf h.wf V, by simp, by simp, by simp, hf⟩

theorem inv_accept {s : State} (h : s.Inv) (w : Word) : (s.accept w).Inv :=
  ⟨h.wf, by simp, by simp, by simp, h.flags⟩

theorem inv_acknowledge {s : State} (h : s.Inv) (v : Word) : (s.acknowledge v).Inv :=
  ⟨h.wf, h.errIff, h.code, fun hb => by simp [h.busy hb], h.flags⟩

theorem inv_refuseWrite {s : State} (h : s.Inv) : s.refuseWrite.Inv :=
  ⟨h.wf, h.errIff, h.code, h.busy, h.flags⟩

theorem inv_softReset {s : State} (h : s.Inv) : s.softReset.Inv :=
  ⟨h.wf, by simp [Status.zero], by simp [Status.zero], by simp [Status.zero], rfl⟩

theorem inv_writeLimb {s : State} (h : s.Inv) (r : Reg) (i : Nat) (v : Word) : (s.writeLimb r i v).Inv :=
  ⟨writeLimb_wf h.wf r i v, h.errIff, h.code, h.busy, h.flags⟩

/-- The invariant does not look at CTRL, SIGN, CMDLAST or the model's own fields. -/
theorem Inv_congr {s t : State} (h : s.Inv) (h1 : t.regs = s.regs) (h2 : t.status = s.status)
    (h3 : t.flags = s.flags) : t.Inv :=
  ⟨h1 ▸ h.wf, h2 ▸ h.errIff, h2 ▸ h.code, h2 ▸ h.busy, h3 ▸ h.flags⟩

theorem inv_writeCtrl {s : State} (h : s.Inv) (v : Word) : (s.writeCtrl v).Inv := by
  rcases writeCtrl_cases s v with ⟨-, e⟩ | ⟨-, -, -, e⟩ | ⟨-, -, e⟩ <;> rw [e]
  · exact inv_softReset h
  · exact inv_raiseError (s := { s with ctrl := ⟨v.getLsbD 0⟩ }) (Inv_congr h rfl rfl rfl) _
  · exact Inv_congr h rfl rfl rfl

theorem inv_writeLocation {s : State} (h : s.Inv) (v : Word) (l : Location) : (s.writeLocation v l).Inv := by
  rcases writeLocation_cases s v l with ⟨-, e⟩ | ⟨-, e⟩ | ⟨-, -, e⟩ | ⟨-, -, e⟩ | ⟨r, i, -, -, e⟩ | ⟨-, e⟩ | e <;>
    rw [e]
  · exact inv_writeCtrl h v
  · exact inv_acknowledge h v
  · exact inv_accept h v
  · exact Inv_congr h rfl rfl rfl
  · exact inv_writeLimb h r i v
  · exact inv_refuseWrite h
  · exact h

theorem inv_access {s : State} (h : s.Inv) (off : Offset) (op : HostOp) : (s.access off op).Inv := by
  rcases access_cases s off op with ⟨e, he⟩ | ⟨v, -, -, he⟩ <;> rw [he]
  · exact Inv_congr h rfl rfl rfl
  · exact Inv_congr (inv_writeLocation h v (locate off)) rfl rfl rfl

end Sys2Proof.Machine
end

