-- ==== Sys2Proof/Laws/Commands.lean ====
section
/-! SUPPORT. When each command succeeds and which error it completes with otherwise, said once; and which parts of a
step depend on the unspecified power-on contents. -/

namespace Sys2Proof.Machine

/-! ### Success and error of a command -/

/-- What a well-formed command needs of its operands to complete without error (60_exceptions.md R211 to R216). -/
def Succeeds (i : Instr) (s : State) : Prop :=
  match i with
  | .add _ s0 s1 => (s.val s0 + s.val s1).natAbs ≤ Config.maxMag
  | .sub _ s0 s1 => (s.val s0 - s.val s1).natAbs ≤ Config.maxMag
  | .mul _ s0 s1 => (s.val s0 * s.val s1).natAbs ≤ Config.maxMag
  | .divmod _ _ _ s1 => s.val s1 ≠ 0
  | .div _ _ s1 => s.val s1 ≠ 0
  | .mod _ _ s1 => s.val s1 ≠ 0
  | .modmul _ _ _ s2 => ¬s.val s2 ≤ 0
  | .modexp _ _ s1 s2 => ¬s.val s2 ≤ 0 ∧ ¬s.val s1 < 0
  | .mrround s0 s1 => ¬(s.val s0 < 5 ∨ s.val s0 % 2 = 0 ∨ s.val s1 < 2 ∨ s.val s0 - 2 < s.val s1)
  | .modinv _ s0 s1 => ¬s.val s1 ≤ 0 ∧ Int.gcd (s.val s0) (s.val s1) = 1
  | _ => True

/-- The operands on which a well-formed command completes with the error `e`. -/
def FailsWith (i : Instr) (e : ErrCode) (s : State) : Prop :=
  match i, e with
  | .add _ s0 s1, .capacityExceeded => ¬(s.val s0 + s.val s1).natAbs ≤ Config.maxMag
  | .sub _ s0 s1, .capacityExceeded => ¬(s.val s0 - s.val s1).natAbs ≤ Config.maxMag
  | .mul _ s0 s1, .capacityExceeded => ¬(s.val s0 * s.val s1).natAbs ≤ Config.maxMag
  | .divmod _ _ _ s1, .divisionByZero => s.val s1 = 0
  | .div _ _ s1, .divisionByZero => s.val s1 = 0
  | .mod _ _ s1, .divisionByZero => s.val s1 = 0
  | .modmul _ _ _ s2, .invalidModulus => s.val s2 ≤ 0
  | .modexp _ _ _ s2, .invalidModulus => s.val s2 ≤ 0
  | .modexp _ _ s1 s2, .invalidOperand => ¬s.val s2 ≤ 0 ∧ s.val s1 < 0
  | .mrround s0 s1, .invalidOperand => s.val s0 < 5 ∨ s.val s0 % 2 = 0 ∨ s.val s1 < 2 ∨ s.val s0 - 2 < s.val s1
  | .modinv _ _ s1, .invalidModulus => s.val s1 ≤ 0
  | .modinv _ s0 s1, .noInverseExists => ¬s.val s1 ≤ 0 ∧ Int.gcd (s.val s0) (s.val s1) ≠ 1
  | _, _ => False

/-- A result with one destination that fits, as a command's success. -/
theorem succeeds_one {i : Instr} {s : State} {d : Reg} {v : Int} {f : Flags} (h : v.natAbs ≤ Config.maxMag)
    (hs : Succeeds i s) : (s.finish (.ok [(d, v)] f)).status.errcode = 0#4 ∧
      (s.finish (.ok [(d, v)] f)).status.err = false ∧ Succeeds i s := by
  rw [(finish_one s d f h).1.status]
  exact ⟨rfl, rfl, hs⟩

theorem succeeds_none {i : Instr} {s : State} {f : Flags} (hs : Succeeds i s) :
    (s.finish (.ok [] f)).status.errcode = 0#4 ∧ (s.finish (.ok [] f)).status.err = false ∧ Succeeds i s := by
  rw [(finish_none s f).1.status]
  exact ⟨rfl, rfl, hs⟩

theorem finish_too_large {s : State} {d : Reg} {v : Int} {f : Flags} (h : ¬v.natAbs ≤ Config.maxMag) :
    s.finish (.ok [(d, v)] f) = s.raiseError .capacityExceeded :=
  finish_overflow (List.mem_singleton_self _) (Nat.lt_of_not_le h)

/-- Every well-formed command either completes without error on operands that allow it, or completes with an error of
its row of R220 on operands that call for that error. -/
theorem exec_outcome {i : Instr} {s t : State} (hw : i.wellFormed = true) (h : exec i s = .next t) :
    (t.status.errcode = 0#4 ∧ t.status.err = false ∧ Succeeds i s) ∨
      ∃ e ∈ allowedErrors i, t = s.raiseError e ∧ FailsWith i e s := by
  have one : ∀ {a : ErrCode}, a ∈ [a] := List.mem_singleton_self _
  have fit := val_natAbs_le s
  cases i <;> cases h
  case ldi d0 imm => exact .inl (succeeds_one (le_maxMag_of_small (by simp; omega)) trivial)
  case mov d0 s0 => exact .inl (succeeds_one (fit s0) trivial)
  case cmp => exact .inl (succeeds_none trivial)
  case tst => exact .inl (succeeds_none trivial)
  case bitlen d0 s0 => exact .inl (succeeds_one (bitLen_fits (fit s0)) trivial)
  case gcd d0 s0 s1 => exact .inl (succeeds_one (gcd_fits (fit s0) (fit s1)) trivial)
  case add d0 s0 s1 =>
    by_cases hc : (s.val s0 + s.val s1).natAbs ≤ Config.maxMag
    · exact .inl (succeeds_one hc hc)
    · exact .inr ⟨_, one, finish_too_large hc, hc⟩
  case sub d0 s0 s1 =>
    by_cases hc : (s.val s0 - s.val s1).natAbs ≤ Config.maxMag
    · exact .inl (succeeds_one hc hc)
    · exact .inr ⟨_, one, finish_too_large hc, hc⟩
  case mul d0 s0 s1 =>
    by_cases hc : (s.val s0 * s.val s1).natAbs ≤ Config.maxMag
    · exact .inl (succeeds_one hc hc)
    · exact .inr ⟨_, one, finish_too_large hc, hc⟩
  case divmod d0 d1 s0 s1 =>
    have hd : d0 ≠ d1 := by simpa [Instr.wellFormed, Instr.dests] using hw
    by_cases hb : s.val s1 = 0
    · right; simp only [hd, if_false, divResult, hb, if_true]; exact ⟨_, one, rfl, hb⟩
    · left
      simp only [hd, if_false, divResult, hb]
      rw [finish_ok (by simp [ediv_fits _ (fit s0), emod_fits _ hb (fit s1)])]
      exact ⟨rfl, rfl, hb⟩
  case div d0 s0 s1 =>
    by_cases hb : s.val s1 = 0
    · right; simp only [divResult, hb, if_true]; exact ⟨_, one, rfl, hb⟩
    · left; simp only [divResult, hb, if_false]; exact succeeds_one (ediv_fits _ (fit s0)) hb
  case mod d0 s0 s1 =>
    by_cases hb : s.val s1 = 0
    · right; simp only [divResult, hb, if_true]; exact ⟨_, one, rfl, hb⟩
    · left; simp only [divResult, hb, if_false]; exact succeeds_one (emod_fits _ hb (fit s1)) hb
  case modmul d0 s0 s1 s2 =>
    by_cases hb : s.val s2 ≤ 0
    · right; rw [if_pos hb]; exact ⟨_, one, rfl, hb⟩
    · left; rw [if_neg hb]; exact succeeds_one (emod_fits _ (by omega) (fit s2)) hb
  case modexp d0 s0 s1 s2 =>
    by_cases hb : s.val s2 ≤ 0
    · right; rw [if_pos hb]; exact ⟨.invalidModulus, by simp [allowedErrors], rfl, hb⟩
    · by_cases he : s.val s1 < 0
      · right; rw [if_neg hb, if_pos he]; exact ⟨.invalidOperand, by simp [allowedErrors], rfl, hb, he⟩
      · left
        rw [if_neg hb, if_neg he, powMod_eq _ (by omega)]
        exact succeeds_one (emod_fits _ (by omega) (fit s2)) ⟨hb, he⟩
  case mrround s0 s1 =>
    split
    · right; exact ⟨_, one, rfl, by dsimp only [FailsWith]; omega⟩
    · split
      · right; exact ⟨_, one, rfl, by dsimp only [FailsWith]; omega⟩
      · left; exact succeeds_none (by dsimp only [Succeeds]; omega)
  case egcd d0 d1 d2 s0 s1 =>
    have hd : ¬(d0 = d1 ∨ d0 = d2 ∨ d1 = d2) := by
      simp only [Instr.wellFormed, Instr.dests, List.nodup_cons, List.mem_cons, List.not_mem_nil, or_false,
        decide_eq_true_eq] at hw
      tauto
    obtain ⟨h1, h2, h3⟩ := egcdAlg_fits (fit s0) (fit s1)
    left
    rw [if_neg hd, finish_ok (by simp [h1, h2, h3])]
    exact ⟨rfl, rfl, trivial⟩
  case modinv d0 s0 s1 =>
    have hg := (egcdAlg_spec (s.val s0) (s.val s1)).1
    by_cases hb : s.val s1 ≤ 0
    · right; rw [if_pos hb]; exact ⟨.invalidModulus, by simp [allowedErrors], rfl, hb⟩
    · rw [if_neg hb]
      by_cases h1 : Int.gcd (s.val s0) (s.val s1) = 1
      · left
        rw [if_neg (by rw [hg, h1]; simp)]
        exact succeeds_one (emod_fits _ (by omega) (fit s1)) ⟨hb, h1⟩
      · right
        rw [if_pos (by rw [hg]; exact_mod_cast h1)]
        exact ⟨.noInverseExists, by simp [allowedErrors], rfl, hb, h1⟩

/-! ### Unspecified power-on contents -/

theorem readsUndefinedLimb_iff (s : State) (off : Offset) (op : HostOp) : readsUndefinedLimb s off op = true ↔
    s.status.busy = false ∧ op = .read .w32 ∧ off.toNat % 4 = 0 ∧
      ∃ r j, locate off = .limb r j ∧ s.regs[r].defd.getLsbD j = false := by
  unfold readsUndefinedLimb
  cases op with
  | write w v => simp
  | read w =>
    cases hl : locate off
    case limb r j =>
      simp only [Bool.and_eq_true, accessOk_iff, HostOp.width, Bool.not_eq_true', HostOp.read.injEq,
        Location.limb.injEq]
      constructor
      · rintro ⟨⟨⟨rfl, h4⟩, hb⟩, hd⟩; exact ⟨hb, rfl, h4, r, j, ⟨rfl, rfl⟩, hd⟩
      · rintro ⟨hb, rfl, h4, r, j, ⟨rfl, rfl⟩, hd⟩; exact ⟨⟨⟨rfl, h4⟩, hb⟩, hd⟩
    all_goals simp

/-- A register all of whose limbs are defined has a value that does not depend on the power-on contents. -/
theorem val_powerOns {s : State} {k : Nat} {r : Reg} (h : s.regs[r].allDefined = true) :
    State.val { s with powerOns := k } r = s.val r := by
  simp only [State.val, State.magnitude, State.sgn, h, if_true]

theorem writeAll_powerOns_comm (s : State) (k : Nat) (V : List (Reg × Int)) :
    State.writeAll { s with powerOns := k } V = { s.writeAll V with powerOns := k } := by
  induction V generalizing s with
  | nil => rfl
  | cons p V ih => exact ih (s.writeVal p.1 p.2)

theorem finish_powerOns_comm (s : State) (k : Nat) (R : Result) :
    State.finish { s with powerOns := k } R = { s.finish R with powerOns := k } := by
  cases R with
  | err e => rfl
  | ok V f => simp only [State.finish, State.commit, writeAll_powerOns_comm]; split <;> rfl

/-- A command whose sources are all defined does not depend on the power-on contents. -/
theorem exec_powerOns_comm (i : Instr) (s : State) (k : Nat) (h : ∀ r ∈ i.sources, s.regs[r].allDefined = true) :
    ∃ t, exec i s = .next t ∧ exec i { s with powerOns := k } = .next { t with powerOns := k } := by
  cases i <;> refine ⟨_, rfl, ?_⟩ <;>
    simp only [Instr.sources, List.mem_cons, List.not_mem_nil, or_false, forall_eq_or_imp, forall_eq] at h <;>
    simp only [exec, execLdi, execMov, execAdd, execSub, execCmp, execTst, execBitlen, execMul, execDivmod, execDiv,
      execMod, execModmul, execModexp, execMrround, execEgcd, execGcd, execModinv, finish_powerOns_comm, val_powerOns, h]

end Sys2Proof.Machine
end

