-- ==== Sys2Proof/Laws/Decode.lean ====
section
/-! SUPPORT. The fields of an encoded word read back (30_encoding.md R91, R92, R103), every word is the word of its
fields, and what the field checks of the decoder say. -/

namespace Sys2Proof

/-! ### Fields of a format-R word -/

section
variable (op : BitVec 8) (d0 d1 d2 s0 s1 s2 : BitVec 4)

theorem opcodeOf_wordR : opcodeOf (wordR op d0 d1 d2 s0 s1 s2) = op := by
  apply BitVec.eq_of_getLsbD_eq
  intro k hk
  have h : ¬ 8 ≤ k := by omega
  simp only [opcodeOf, wordR, BitVec.getLsbD_extractLsb', BitVec.getLsbD_or, BitVec.getLsbD_setWidth,
    BitVec.getLsbD_shiftLeft]
  have : k < 12 ∧ k < 16 ∧ k < 20 ∧ k < 24 ∧ k < 28 ∧ k < 32 := by omega
  simp [hk, this]

theorem field_wordR (f : Field) : field (wordR op d0 d1 d2 s0 s1 s2) f =
    match f with
    | .D0 => d0
    | .D1 => d1
    | .D2 => d2
    | .S0 => s0
    | .S1 => s1
    | .S2 => s2 := by
  cases f <;> (apply BitVec.eq_of_getLsbD_eq; intro k hk; interval_cases k) <;>
    simp [field, wordR, Field.low]

end

/-- Every word is the format-R word of its own fields. -/
theorem wordR_fields (w : Word) :
    wordR (opcodeOf w) (field w .D0) (field w .D1) (field w .D2) (field w .S0) (field w .S1) (field w .S2) = w := by
  apply BitVec.eq_of_getLsbD_eq
  intro k hk
  interval_cases k <;> simp [field, wordR, Field.low, opcodeOf]

/-! ### Fields of a format-I word -/

theorem opcodeOf_wordI (d0 : BitVec 4) (imm : BitVec 12) : opcodeOf (wordI d0 imm) = 0x01#8 := by
  apply BitVec.eq_of_getLsbD_eq
  intro k hk
  interval_cases k <;> simp [opcodeOf, wordI]

theorem field_wordI (d0 : BitVec 4) (imm : BitVec 12) : field (wordI d0 imm) .D0 = d0 := by
  apply BitVec.eq_of_getLsbD_eq
  intro k hk
  interval_cases k <;> simp [field, wordI, Field.low]

theorem zeroField_wordI (d0 : BitVec 4) (imm : BitVec 12) : (wordI d0 imm).extractLsb' 12 8 = 0#8 := by
  apply BitVec.eq_of_getLsbD_eq
  intro k hk
  interval_cases k <;> simp [wordI]

theorem imm_wordI (d0 : BitVec 4) (imm : BitVec 12) : (wordI d0 imm).extractLsb' 20 12 = imm := by
  apply BitVec.eq_of_getLsbD_eq
  intro k hk
  interval_cases k <;> simp [wordI]

/-- A word with opcode `0x01` and zero bits `[19:12]` is the format-I word of its fields. -/
theorem wordI_fields {w : Word} (hop : opcodeOf w = 0x01#8) (hz : w.extractLsb' 12 8 = 0#8) :
    wordI (field w .D0) (w.extractLsb' 20 12) = w := by
  apply BitVec.eq_of_getLsbD_eq
  intro k hk
  have ho : ∀ j < 8, w.getLsbD j = (0x01#8).getLsbD j := fun j hj => by
    rw [← hop]; simp [opcodeOf, hj]
  have hzz : ∀ j < 8, w.getLsbD (12 + j) = false := fun j hj => by
    have := congrArg (fun v => v.getLsbD j) hz
    simpa [BitVec.getLsbD_extractLsb', hj] using this
  by_cases h1 : k < 8
  · rw [ho k h1]; interval_cases k <;> simp [wordI]
  · by_cases h2 : 12 ≤ k ∧ k < 20
    · obtain ⟨j, rfl⟩ := Nat.exists_eq_add_of_le h2.1
      rw [hzz j (by omega)]
      have hj : j < 8 := by omega
      interval_cases j <;> simp [wordI]
    · interval_cases k <;> first | omega | simp [wordI, field, Field.low]

/-! ### Register fields -/

theorem regField_bit3 (r : Reg) : (regField r).getLsbD 3 = false := by revert r; decide

@[simp] theorem regField_getElem_bit3 (r : Reg) : (regField r)[3] = false := regField_bit3 r

theorem regField_toNat (r : Reg) : (regField r).toNat % 8 = r.val := by revert r; decide

theorem regField_regOf {w : Word} {f : Field} (h : (field w f).getLsbD 3 = false) :
    regField (regOf w f) = field w f := by
  have key : ∀ v : BitVec 4, v.getLsbD 3 = false → BitVec.ofNat 4 (v.toNat % 8) = v := by decide
  exact key _ h

theorem regOf_eq {w : Word} {f : Field} {r : Reg} (h : field w f = regField r) : regOf w f = r :=
  Fin.ext (by simp only [regOf, h, regField_toNat])

theorem regField_injective {r r' : Reg} (h : regField r = regField r') : r = r' := by
  revert r r'; decide

/-! ### What the checks of the decoder say -/

theorem checkFields_none {w : Word} {used unused : List Field} (h : checkFields w used unused = none) :
    (∀ f ∈ used, (field w f).getLsbD 3 = false) ∧ ∀ f ∈ unused, field w f = 0#4 := by
  unfold checkFields at h
  split at h
  · cases h
  · rename_i h1
    split at h
    · cases h
    · rename_i h2
      simp only [List.any_eq_true, not_exists, not_and, Bool.not_eq_true, bne_iff_ne, ne_eq, not_not] at h1 h2
      exact ⟨h1, h2⟩

theorem checkFields_ok {w : Word} {used unused : List Field} (h1 : ∀ f ∈ used, (field w f).getLsbD 3 = false)
    (h2 : ∀ f ∈ unused, field w f = 0#4) : checkFields w used unused = none := by
  unfold checkFields
  rw [if_neg (by simpa using h1), if_neg (by simpa using h2)]

/-- Everything `decodeR` can answer. -/
theorem decodeR_ok_iff {w : Word} {used unused : List Field} {i j : Instr} :
    decodeR w used unused i = .ok j ↔
      (∀ f ∈ used, (field w f).getLsbD 3 = false) ∧ (∀ f ∈ unused, field w f = 0#4) ∧ i.wellFormed = true ∧ i = j := by
  unfold decodeR
  cases hc : checkFields w used unused with
  | some e =>
    simp only [reduceCtorEq, false_iff, not_and]
    intro h1 h2
    rw [checkFields_ok h1 h2] at hc; cases hc
  | none =>
    have ⟨h1, h2⟩ := checkFields_none hc
    by_cases hw : i.wellFormed = true
    · simp only [hw, if_true, Except.ok.injEq, true_and]
      exact ⟨fun h => ⟨h1, h2, h⟩, fun h => h.2.2⟩
    · simp only [hw, if_false, reduceCtorEq, false_and, and_false]

theorem decodeI_ok_iff {w : Word} {j : Instr} :
    decodeI w = .ok j ↔ (field w .D0).getLsbD 3 = false ∧ w.extractLsb' 12 8 = 0#8 ∧
      .ldi (regOf w .D0) (w.extractLsb' 20 12) = j := by
  unfold decodeI
  cases h1 : (field w .D0).getLsbD 3 with
  | true => simp only [if_true, reduceCtorEq, false_and]
  | false =>
    by_cases h2 : w.extractLsb' 12 8 = 0#8
    · simp only [h2, bne_self_eq_false, Bool.false_eq_true, if_false, Except.ok.injEq, true_and]
    · have h3 : (w.extractLsb' 12 8 != 0#8) = true := by simpa using h2
      simp only [h2, h3, if_true, Bool.false_eq_true, if_false, reduceCtorEq, false_and, and_false]

/-- Two legal register fields are equal exactly when they name the same register. -/
theorem regOf_eq_regOf {w : Word} {f g : Field} (h1 : (field w f).getLsbD 3 = false)
    (h2 : (field w g).getLsbD 3 = false) : regOf w f = regOf w g ↔ field w f = field w g := by
  constructor
  · intro h; rw [← regField_regOf h1, ← regField_regOf h2, h]
  · intro h; simp [regOf, h]

/-! ### Masks -/

theorem wordR_and (op op' : BitVec 8) (a b c d e f a' b' c' d' e' f' : BitVec 4) :
    wordR op a b c d e f &&& wordR op' a' b' c' d' e' f' =
      wordR (op &&& op') (a &&& a') (b &&& b') (c &&& c') (d &&& d') (e &&& e') (f &&& f') := by
  apply BitVec.eq_of_getLsbD_eq
  intro k hk
  interval_cases k <;> simp [wordR]

theorem wordR_inj {op op' : BitVec 8} {a b c d e f a' b' c' d' e' f' : BitVec 4} :
    wordR op a b c d e f = wordR op' a' b' c' d' e' f' ↔
      op = op' ∧ a = a' ∧ b = b' ∧ c = c' ∧ d = d' ∧ e = e' ∧ f = f' := by
  constructor
  · intro h
    refine ⟨?_, ?_, ?_, ?_, ?_, ?_, ?_⟩
    · simpa [opcodeOf_wordR] using congrArg opcodeOf h
    · simpa [field_wordR] using congrArg (field · .D0) h
    · simpa [field_wordR] using congrArg (field · .D1) h
    · simpa [field_wordR] using congrArg (field · .D2) h
    · simpa [field_wordR] using congrArg (field · .S0) h
    · simpa [field_wordR] using congrArg (field · .S1) h
    · simpa [field_wordR] using congrArg (field · .S2) h
  · rintro ⟨rfl, rfl, rfl, rfl, rfl, rfl, rfl⟩; rfl

/-- A word under a field-wise mask, field by field. -/
theorem and_wordR_eq_iff (w : Word) (op : BitVec 8) (m0 m1 m2 m3 m4 m5 : BitVec 4) :
    w &&& wordR 0xFF#8 m0 m1 m2 m3 m4 m5 = wordR op 0 0 0 0 0 0 ↔
      opcodeOf w = op ∧ field w .D0 &&& m0 = 0 ∧ field w .D1 &&& m1 = 0 ∧ field w .D2 &&& m2 = 0 ∧
      field w .S0 &&& m3 = 0 ∧ field w .S1 &&& m4 = 0 ∧ field w .S2 &&& m5 = 0 := by
  conv_lhs => rw [← wordR_fields w, wordR_and, wordR_inj]
  have key : ∀ v : BitVec 8, v &&& 0xFF#8 = v := by decide
  rw [key]

end Sys2Proof
end

