-- ==== Sys2Proof/Laws/PerInstr.lean ====
section
/-! SUPPORT. The statements made per instruction. Family `RoundTrip`: the word the encoder gives a well-formed command
decodes to it (30_encoding.md R103). Family `OpcodeByte`: the encoded word carries the opcode of R94. -/

namespace Sys2Proof.Laws

/-- The encoded word of the command decodes to it. -/
def RoundTrip.Statement (i : Instr) : Prop := i.wellFormed = true → decode (encode i) = .ok i

/-- A format-R word whose used fields are register numbers and whose unused fields are 0 decodes to the command its
fields name. -/
theorem decodeR_wordR {w : Word} {used unused : List Field} {i j : Instr}
    (h1 : ∀ f ∈ used, (field w f).getLsbD 3 = false) (h2 : ∀ f ∈ unused, field w f = 0#4) (hij : i = j)
    (hw : j.wellFormed = true) : decodeR w used unused i = .ok j :=
  decodeR_ok_iff.2 ⟨h1, h2, hij ▸ hw, hij⟩

theorem RoundTrip.ldi (d0 : Reg) (imm : BitVec 12) : RoundTrip.Statement (.ldi d0 imm) := by
  intro _
  simp only [decode, encode, opcodeOf_wordI]
  refine decodeI_ok_iff.2 ⟨?_, zeroField_wordI _ _, ?_⟩
  · rw [field_wordI]; exact regField_bit3 d0
  · rw [imm_wordI, regOf_eq (field_wordI _ _)]

theorem RoundTrip.mov (d0 s0 : Reg) : RoundTrip.Statement (.mov d0 s0) := by
  intro hw
  simp only [decode, encode, opcodeOf_wordR]
  refine decodeR_wordR ?_ ?_ ?_ hw
  · simp [field_wordR]
  · simp [field_wordR]
  · congr 1 <;> exact regOf_eq (field_wordR ..)

theorem RoundTrip.add (d0 s0 s1 : Reg) : RoundTrip.Statement (.add d0 s0 s1) := by
  intro hw
  simp only [decode, encode, opcodeOf_wordR]
  refine decodeR_wordR ?_ ?_ ?_ hw
  · simp [field_wordR]
  · simp [field_wordR]
  · congr 1 <;> exact regOf_eq (field_wordR ..)

theorem RoundTrip.sub (d0 s0 s1 : Reg) : RoundTrip.Statement (.sub d0 s0 s1) := by
  intro hw
  simp only [decode, encode, opcodeOf_wordR]
  refine decodeR_wordR ?_ ?_ ?_ hw
  · simp [field_wordR]
  · simp [field_wordR]
  · congr 1 <;> exact regOf_eq (field_wordR ..)

theorem RoundTrip.cmp (s0 s1 : Reg) : RoundTrip.Statement (.cmp s0 s1) := by
  intro hw
  simp only [decode, encode, opcodeOf_wordR]
  refine decodeR_wordR ?_ ?_ ?_ hw
  · simp [field_wordR]
  · simp [field_wordR]
  · congr 1 <;> exact regOf_eq (field_wordR ..)

theorem RoundTrip.tst (s0 : Reg) : RoundTrip.Statement (.tst s0) := by
  intro hw
  simp only [decode, encode, opcodeOf_wordR]
  refine decodeR_wordR ?_ ?_ ?_ hw
  · simp [field_wordR]
  · simp [field_wordR]
  · congr 1 <;> exact regOf_eq (field_wordR ..)

theorem RoundTrip.bitlen (d0 s0 : Reg) : RoundTrip.Statement (.bitlen d0 s0) := by
  intro hw
  simp only [decode, encode, opcodeOf_wordR]
  refine decodeR_wordR ?_ ?_ ?_ hw
  · simp [field_wordR]
  · simp [field_wordR]
  · congr 1 <;> exact regOf_eq (field_wordR ..)

theorem RoundTrip.mul (d0 s0 s1 : Reg) : RoundTrip.Statement (.mul d0 s0 s1) := by
  intro hw
  simp only [decode, encode, opcodeOf_wordR]
  refine decodeR_wordR ?_ ?_ ?_ hw
  · simp [field_wordR]
  · simp [field_wordR]
  · congr 1 <;> exact regOf_eq (field_wordR ..)

theorem RoundTrip.divmod (d0 d1 s0 s1 : Reg) : RoundTrip.Statement (.divmod d0 d1 s0 s1) := by
  intro hw
  simp only [decode, encode, opcodeOf_wordR]
  refine decodeR_wordR ?_ ?_ ?_ hw
  · simp [field_wordR]
  · simp [field_wordR]
  · congr 1 <;> exact regOf_eq (field_wordR ..)

theorem RoundTrip.div (d0 s0 s1 : Reg) : RoundTrip.Statement (.div d0 s0 s1) := by
  intro hw
  simp only [decode, encode, opcodeOf_wordR]
  refine decodeR_wordR ?_ ?_ ?_ hw
  · simp [field_wordR]
  · simp [field_wordR]
  · congr 1 <;> exact regOf_eq (field_wordR ..)

theorem RoundTrip.mod (d0 s0 s1 : Reg) : RoundTrip.Statement (.mod d0 s0 s1) := by
  intro hw
  simp only [decode, encode, opcodeOf_wordR]
  refine decodeR_wordR ?_ ?_ ?_ hw
  · simp [field_wordR]
  · simp [field_wordR]
  · congr 1 <;> exact regOf_eq (field_wordR ..)

theorem RoundTrip.modmul (d0 s0 s1 s2 : Reg) : RoundTrip.Statement (.modmul d0 s0 s1 s2) := by
  intro hw
  simp only [decode, encode, opcodeOf_wordR]
  refine decodeR_wordR ?_ ?_ ?_ hw
  · simp [field_wordR]
  · simp [field_wordR]
  · congr 1 <;> exact regOf_eq (field_wordR ..)

theorem RoundTrip.modexp (d0 s0 s1 s2 : Reg) : RoundTrip.Statement (.modexp d0 s0 s1 s2) := by
  intro hw
  simp only [decode, encode, opcodeOf_wordR]
  refine decodeR_wordR ?_ ?_ ?_ hw
  · simp [field_wordR]
  · simp [field_wordR]
  · congr 1 <;> exact regOf_eq (field_wordR ..)

theorem RoundTrip.mrround (s0 s1 : Reg) : RoundTrip.Statement (.mrround s0 s1) := by
  intro hw
  simp only [decode, encode, opcodeOf_wordR]
  refine decodeR_wordR ?_ ?_ ?_ hw
  · simp [field_wordR]
  · simp [field_wordR]
  · congr 1 <;> exact regOf_eq (field_wordR ..)

theorem RoundTrip.egcd (d0 d1 d2 s0 s1 : Reg) : RoundTrip.Statement (.egcd d0 d1 d2 s0 s1) := by
  intro hw
  simp only [decode, encode, opcodeOf_wordR]
  refine decodeR_wordR ?_ ?_ ?_ hw
  · simp [field_wordR]
  · simp [field_wordR]
  · congr 1 <;> exact regOf_eq (field_wordR ..)

theorem RoundTrip.gcd (d0 s0 s1 : Reg) : RoundTrip.Statement (.gcd d0 s0 s1) := by
  intro hw
  simp only [decode, encode, opcodeOf_wordR]
  refine decodeR_wordR ?_ ?_ ?_ hw
  · simp [field_wordR]
  · simp [field_wordR]
  · congr 1 <;> exact regOf_eq (field_wordR ..)

theorem RoundTrip.modinv (d0 s0 s1 : Reg) : RoundTrip.Statement (.modinv d0 s0 s1) := by
  intro hw
  simp only [decode, encode, opcodeOf_wordR]
  refine decodeR_wordR ?_ ?_ ?_ hw
  · simp [field_wordR]
  · simp [field_wordR]
  · congr 1 <;> exact regOf_eq (field_wordR ..)

/-- The opcode byte of R94. -/
def opcodeByte : Instr → BitVec 8
  | .ldi _ _ => 0x01#8
  | .mov _ _ => 0x02#8
  | .add _ _ _ => 0x03#8
  | .sub _ _ _ => 0x04#8
  | .cmp _ _ => 0x05#8
  | .tst _ => 0x06#8
  | .bitlen _ _ => 0x07#8
  | .mul _ _ _ => 0x10#8
  | .divmod _ _ _ _ => 0x18#8
  | .div _ _ _ => 0x19#8
  | .mod _ _ _ => 0x1A#8
  | .modmul _ _ _ _ => 0x20#8
  | .modexp _ _ _ _ => 0x28#8
  | .mrround _ _ => 0x30#8
  | .egcd _ _ _ _ _ => 0x38#8
  | .gcd _ _ _ => 0x39#8
  | .modinv _ _ _ => 0x3A#8

/-- The encoded word of the command carries its opcode byte. -/
def OpcodeByte.Statement (i : Instr) : Prop := opcodeOf (encode i) = opcodeByte i

theorem OpcodeByte.ldi (d0 : Reg) (imm : BitVec 12) : OpcodeByte.Statement (.ldi d0 imm) := opcodeOf_wordI _ _
theorem OpcodeByte.mov (d0 s0 : Reg) : OpcodeByte.Statement (.mov d0 s0) := opcodeOf_wordR ..
theorem OpcodeByte.add (d0 s0 s1 : Reg) : OpcodeByte.Statement (.add d0 s0 s1) := opcodeOf_wordR ..
theorem OpcodeByte.sub (d0 s0 s1 : Reg) : OpcodeByte.Statement (.sub d0 s0 s1) := opcodeOf_wordR ..
theorem OpcodeByte.cmp (s0 s1 : Reg) : OpcodeByte.Statement (.cmp s0 s1) := opcodeOf_wordR ..
theorem OpcodeByte.tst (s0 : Reg) : OpcodeByte.Statement (.tst s0) := opcodeOf_wordR ..
theorem OpcodeByte.bitlen (d0 s0 : Reg) : OpcodeByte.Statement (.bitlen d0 s0) := opcodeOf_wordR ..
theorem OpcodeByte.mul (d0 s0 s1 : Reg) : OpcodeByte.Statement (.mul d0 s0 s1) := opcodeOf_wordR ..
theorem OpcodeByte.divmod (d0 d1 s0 s1 : Reg) : OpcodeByte.Statement (.divmod d0 d1 s0 s1) := opcodeOf_wordR ..
theorem OpcodeByte.div (d0 s0 s1 : Reg) : OpcodeByte.Statement (.div d0 s0 s1) := opcodeOf_wordR ..
theorem OpcodeByte.mod (d0 s0 s1 : Reg) : OpcodeByte.Statement (.mod d0 s0 s1) := opcodeOf_wordR ..
theorem OpcodeByte.modmul (d0 s0 s1 s2 : Reg) : OpcodeByte.Statement (.modmul d0 s0 s1 s2) := opcodeOf_wordR ..
theorem OpcodeByte.modexp (d0 s0 s1 s2 : Reg) : OpcodeByte.Statement (.modexp d0 s0 s1 s2) := opcodeOf_wordR ..
theorem OpcodeByte.mrround (s0 s1 : Reg) : OpcodeByte.Statement (.mrround s0 s1) := opcodeOf_wordR ..
theorem OpcodeByte.egcd (d0 d1 d2 s0 s1 : Reg) : OpcodeByte.Statement (.egcd d0 d1 d2 s0 s1) := opcodeOf_wordR ..
theorem OpcodeByte.gcd (d0 s0 s1 : Reg) : OpcodeByte.Statement (.gcd d0 s0 s1) := opcodeOf_wordR ..
theorem OpcodeByte.modinv (d0 s0 s1 : Reg) : OpcodeByte.Statement (.modinv d0 s0 s1) := opcodeOf_wordR ..

end Sys2Proof.Laws
end

