-- ==== Sys2Proof/Machine/Assembler.lean ====
section
/-! DEFINITION. The assembler notation of a command (30_encoding.md R102), its pseudo-instructions (R104) and the word
an assembler produces (R103). The CORE never sees it: it sees words. -/

namespace Sys2Proof.Machine

/-- An operand as written: a register `B0` to `B7`, or a number. -/
inductive AsmOperand where
  | reg (r : Reg)
  | num (n : Nat)
deriving DecidableEq, Repr

/-- A decimal or, in upper case, hexadecimal digit. -/
def digitValue (c : Char) : Nat :=
  if '0' ≤ c ∧ c ≤ '9' then c.toNat - 48 else if 'A' ≤ c ∧ c ≤ 'F' then c.toNat - 55 else 16

/-- A non-empty run of digits in a base. -/
def parseDigits (base : Nat) (cs : List Char) : Option Nat :=
  if cs ≠ [] ∧ cs.all (fun c => decide (digitValue c < base))
  then some (cs.foldl (fun n c => n * base + digitValue c) 0) else none

/-- One operand, in upper case: a register, decimal, or `0x` hexadecimal (R102). -/
def parseOperand : List Char → Option AsmOperand
  | ['B', c] => if h : digitValue c < 8 then some (.reg ⟨digitValue c, h⟩) else none
  | '0' :: 'X' :: cs => (parseDigits 16 cs).map .num
  | cs => (parseDigits 10 cs).map .num

/-- Cut a list of characters at every comma. -/
def splitCommas : List Char → List (List Char)
  | [] => [[]]
  | c :: cs =>
    if c = ',' then [] :: splitCommas cs
    else
      match splitCommas cs with
      | [] => [[c]]
      | w :: ws => (c :: w) :: ws

/-- The command a mnemonic and its operands stand for: operands in field order, LDI's immediate last and at most 4095
(R102), pseudo-instructions expanded (R104). -/
def assembleParts (name : String) (ops : List AsmOperand) : Option Instr :=
  match name, ops with
  | "LDI", [.reg d, .num n] => if n ≤ 4095 then some (.ldi d (BitVec.ofNat 12 n)) else none
  | "MOV", [.reg d, .reg a] => some (.mov d a)
  | "ADD", [.reg d, .reg a, .reg b] => some (.add d a b)
  | "SUB", [.reg d, .reg a, .reg b] => some (.sub d a b)
  | "CMP", [.reg a, .reg b] => some (.cmp a b)
  | "TST", [.reg a] => some (.tst a)
  | "BITLEN", [.reg d, .reg a] => some (.bitlen d a)
  | "MUL", [.reg d, .reg a, .reg b] => some (.mul d a b)
  | "DIVMOD", [.reg d, .reg d1, .reg a, .reg b] => some (.divmod d d1 a b)
  | "DIV", [.reg d, .reg a, .reg b] => some (.div d a b)
  | "MOD", [.reg d, .reg a, .reg b] => some (.mod d a b)
  | "MODMUL", [.reg d, .reg a, .reg b, .reg m] => some (.modmul d a b m)
  | "MODEXP", [.reg d, .reg b, .reg e, .reg m] => some (.modexp d b e m)
  | "MRROUND", [.reg n, .reg b] => some (.mrround n b)
  | "EGCD", [.reg g, .reg x, .reg y, .reg a, .reg b] => some (.egcd g x y a b)
  | "GCD", [.reg d, .reg a, .reg b] => some (.gcd d a b)
  | "MODINV", [.reg d, .reg a, .reg m] => some (.modinv d a m)
  | "CLR", [.reg d] => some (Pseudo.clr d).expand
  | "SQR", [.reg d, .reg a] => some (Pseudo.sqr d a).expand
  | "MODSQR", [.reg d, .reg a, .reg m] => some (Pseudo.modsqr d a m).expand
  | "INV", [.reg d, .reg a, .reg m] => some (Pseudo.inv d a m).expand
  | "POW", [.reg d, .reg b, .reg e, .reg m] => some (Pseudo.pow d b e m).expand
  | _, _ => none

/-- One line: the comment from `;` on dropped, letters in either case, the mnemonic up to the first blank, operands
between commas with blanks around them ignored (R102; log 16). A line that names no well-formed command is refused. -/
def assembleInstr (line : String) : Option Instr :=
  let cs := ((line.toList.takeWhile (· ≠ ';')).map Char.toUpper).dropWhile (· = ' ')
  let name := cs.takeWhile (· ≠ ' ')
  let rest := splitCommas ((cs.drop name.length).filter (· ≠ ' '))
  match rest.mapM parseOperand with
  | some ops => (assembleParts (String.ofList name) ops).filter Instr.wellFormed
  | none => none

/-- The command word of a line (R102, R103). -/
def assemble (line : String) : Option Word := (assembleInstr line).map encode

end Sys2Proof.Machine
end

