-- ==== Sys2Proof/Tests/Slice0.lean ====
section
/-! SUPPORT. Tests of the model: expected results are the spec's own (95_test_vectors.md, and the rules named), never
the model's. Then one witness for every obligation with hypotheses. -/

namespace Sys2Proof.Tests

open Sys2Proof.Machine

set_option Elab.async false

/-! ### Well-formedness and decoding (30_encoding.md R97; 95_test_vectors.md 2.1) -/

theorem test_wf_refuses_divmod_same_destination : (Instr.divmod 2 2 0 1).wellFormed = false := by decide
theorem test_wf_refuses_egcd_d0_d1 : (Instr.egcd 2 2 4 0 1).wellFormed = false := by decide
theorem test_wf_refuses_egcd_d0_d2 : (Instr.egcd 2 3 2 0 1).wellFormed = false := by decide
theorem test_wf_refuses_egcd_d1_d2 : (Instr.egcd 2 3 3 0 1).wellFormed = false := by decide
theorem test_wf_accepts_sources_as_destinations : (Instr.egcd 0 1 2 0 1).wellFormed = true := by decide

theorem test_decode_ldi : decode 0xFFF00101#32 = .ok (.ldi 1 4095#12) := by decide
theorem test_decode_mov : decode 0x00100202#32 = .ok (.mov 2 1) := by decide
theorem test_decode_add : decode 0x02100303#32 = .ok (.add 3 1 2) := by decide
theorem test_decode_sub : decode 0x02100304#32 = .ok (.sub 3 1 2) := by decide
theorem test_decode_cmp : decode 0x02100005#32 = .ok (.cmp 1 2) := by decide
theorem test_decode_tst : decode 0x00700006#32 = .ok (.tst 7) := by decide
theorem test_decode_bitlen : decode 0x00100407#32 = .ok (.bitlen 4 1) := by decide
theorem test_decode_mul : decode 0x00000010#32 = .ok (.mul 0 0 0) := by decide
theorem test_decode_divmod : decode 0x01003218#32 = .ok (.divmod 2 3 0 1) := by decide
theorem test_decode_div : decode 0x01000219#32 = .ok (.div 2 0 1) := by decide
theorem test_decode_mod : decode 0x0100021A#32 = .ok (.mod 2 0 1) := by decide
theorem test_decode_modmul : decode 0x21000320#32 = .ok (.modmul 3 0 1 2) := by decide
theorem test_decode_modexp : decode 0x21000328#32 = .ok (.modexp 3 0 1 2) := by decide
theorem test_decode_mrround : decode 0x01000030#32 = .ok (.mrround 0 1) := by decide
theorem test_decode_egcd : decode 0x01043238#32 = .ok (.egcd 2 3 4 0 1) := by decide
theorem test_decode_gcd : decode 0x01000239#32 = .ok (.gcd 2 0 1) := by decide
theorem test_decode_modinv : decode 0x0100023A#32 = .ok (.modinv 2 0 1) := by decide

theorem test_decode_illegal_ldi : decode 0x02A01101#32 = .error .unusedField ∧
    decode 0x02A80101#32 = .error .unusedField ∧ decode 0x02A00901#32 = .error .registerField := by decide
theorem test_decode_illegal_fields : decode 0x01100202#32 = .error .unusedField ∧
    decode 0x00900202#32 = .error .registerField ∧ decode 0x00000105#32 = .error .unusedField ∧
    decode 0x11043238#32 = .error .unusedField ∧ decode 0xA1000328#32 = .error .registerField ∧
    decode 0x01000330#32 = .error .unusedField := by decide
theorem test_decode_illegal_destinations : decode 0x01002218#32 = .error .repeatedDestination ∧
    decode 0x01023238#32 = .error .repeatedDestination := by decide
theorem test_decode_reserved : decode 0x00000000#32 = .error .reservedOpcode ∧
    decode 0x01000208#32 = .error .reservedOpcode ∧ decode 0x01000211#32 = .error .reservedOpcode ∧
    decode 0x0100023B#32 = .error .reservedOpcode ∧ decode 0xFFFFFFFF#32 = .error .reservedOpcode := by decide
theorem test_encode : encode (.modexp 3 0 1 2) = 0x21000328#32 ∧ encode (.ldi 1 42#12) = 0x02A00101#32 := by decide

/-- R102, R104. -/
theorem test_assemble : assemble "MODEXP B3, B0, B1, B2" = some 0x21000328#32 ∧
    assemble "  ldi b1, 0x2A ; forty-two" = some 0x02A00101#32 ∧ assemble "CLR B0" = some 0x00000001#32 ∧
    assemble "SQR B3, B0" = some 0x00000310#32 := by decide +kernel
theorem test_assemble_refuses : assemble "LDI B2, 4096" = none ∧ assemble "DIVMOD B2, B2, B0, B1" = none ∧
    assemble "MOV B8, B0" = none := by decide +kernel

/-! ### One step on a small state -/

/-- B0, B1, B2 hold `a`, `b`, `c`, and B3, B4, B5 hold 0 (95_test_vectors.md 2.3 to 2.12). -/
def base (a b c : Int) : State :=
  [(0, a), (1, b), (2, c), (3, 0), (4, 0), (5, 0)].foldl (fun s p => s.writeVal p.1 p.2) State.reset

/-- The state of an outcome. -/
def after : Host.Outcome State Fault Refusal → State
  | .next t => t
  | _ => State.reset

/-- The state after one step that completes the command word `w`. -/
def run (s : State) (w : Nat) : State := after (step (s.withFetchWord 32 w))

/-- What the vectors of part 2 show: B3, FLAGS and STATUS. -/
def shows (s : State) : Int × Word × Word := (s.val 3, s.flags.toWord, s.status.toWord)

/-- MAXMAG (00_scope.md R8). -/
def maxmag : Int := 2 ^ 16384 - 1

theorem test_ldi : shows (run (base 0 0 0) 0xFFF00301) = (4095, 4#32, 2#32) := by decide +kernel
theorem test_ldi_illegal : shows (run (base 0 0 0) 0x02A01301) = (0, 0#32, 0x406#32) := by decide +kernel
theorem test_mov : shows (run (base (-7) 0 0) 0x00000302) = (-7, 6#32, 2#32) := by decide +kernel
/-- Negative zero is made canonical (R122). -/
theorem test_mov_negative_zero :
    (run { base 0 0 0 with sign := 0x09#8 } 0x00000302).sign = 0x01#8 := by decide +kernel
theorem test_add : shows (run (base 42 (-50) 0) 0x01000303) = (-8, 2#32, 2#32) := by decide +kernel
theorem test_add_capacity : shows (run (base maxmag 1 0) 0x01000303) = (0, 0#32, 0x506#32) := by decide +kernel
theorem test_sub : shows (run (base 42 (-50) 0) 0x01000304) = (92, 0#32, 2#32) := by decide +kernel
theorem test_sub_same : shows (run (base (-3) 0 0) 0x00000304) = (0, 1#32, 2#32) := by decide +kernel
theorem test_cmp_lt : shows (run (base (-50) 42 0) 0x01000005) = (0, 8#32, 2#32) := by decide +kernel
theorem test_cmp_gt : shows (run (base 0 (-1) 0) 0x01000005) = (0, 0x20#32, 2#32) := by decide +kernel
theorem test_tst : shows (run (base (-4) 0 0) 0x00000006) = (0, 2#32, 2#32) := by decide +kernel
theorem test_bitlen : shows (run (base 256 0 0) 0x00000307) = (9, 4#32, 2#32) := by decide +kernel
theorem test_bitlen_full : shows (run (base (-maxmag) 0 0) 0x00000307) = (16384, 0#32, 2#32) := by decide +kernel
theorem test_mul : shows (run (base 6 (-7) 0) 0x01000310) = (-42, 2#32, 2#32) := by decide +kernel
theorem test_mul_capacity : shows (run (base maxmag 2 0) 0x01000310) = (0, 0#32, 0x506#32) := by decide +kernel
theorem test_divmod : shows (run (base (-7) (-2) 0) 0x01004318) = (4, 0#32, 2#32) := by decide +kernel
/-- Sources read before destinations are written (R114): `val(B0) = -4`, `val(B1) = 1`. -/
theorem test_divmod_overlap :
    ((run (base (-7) 2 0) 0x01001018).val 0, (run (base (-7) 2 0) 0x01001018).val 1) = (-4, 1) := by decide +kernel
theorem test_div : shows (run (base 7 (-2) 0) 0x01000319) = (-3, 6#32, 2#32) := by decide +kernel
theorem test_div_zero : shows (run (base 5 0 0) 0x01000319) = (0, 0#32, 0x106#32) := by decide +kernel
theorem test_mod : shows (run (base (-7) 2 0) 0x0100031A) = (1, 4#32, 2#32) := by decide +kernel
theorem test_modmul : shows (run (base (-5) 7 11) 0x21000320) = (9, 4#32, 2#32) := by decide +kernel
theorem test_modmul_modulus : shows (run (base 3 4 0) 0x21000320) = (0, 0#32, 0x206#32) := by decide +kernel
theorem test_modexp : shows (run (base 65 17 3233) 0x21000328) = (2790, 0#32, 2#32) := by decide +kernel
theorem test_modexp_priority : shows (run (base 5 (-1) (-5)) 0x21000328) = (0, 0#32, 0x206#32) := by decide +kernel
theorem test_mrround_pass : shows (run (base 97 2 0) 0x01000030) = (0, 0x40#32, 2#32) := by decide +kernel
theorem test_mrround_fail : shows (run (base 561 2 0) 0x01000030) = (0, 0#32, 2#32) := by decide +kernel
theorem test_egcd : let t := run (base (-240) 46 0) 0x01054338
    (t.val 3, t.val 4, t.val 5) = (2, 9, 47) := by decide +kernel
theorem test_egcd_zero : let t := run (base 0 (-7) 0) 0x01054338
    (t.val 3, t.val 4, t.val 5) = (7, 0, -1) := by decide +kernel
theorem test_gcd : shows (run (base (-12) 18 0) 0x01000339) = (6, 0#32, 2#32) := by decide +kernel
theorem test_modinv : shows (run (base 17 3120 0) 0x0100033A) = (2753, 4#32, 2#32) := by decide +kernel
theorem test_modinv_none : shows (run (base 4 8 0) 0x0100033A) = (0, 0#32, 0x306#32) := by decide +kernel

/-! ### Another capacity: MAXLIMBS is an argument (00_scope.md R8; 93 U14, `MAXMAG = 2^(32 * MAXLIMBS) - 1`) -/

/-- A CORE of two limbs, B0 and B1 holding `a` and `b`, with the word `w` accepted. -/
def small (a b : Int) (w : Word) : State 2 :=
  (((State.resetAt 2).writeVal 0 a).writeVal 1 b).accept w

/-- ERRCODE after the completion, at that capacity. -/
def smallCode (s : State 2) : Option (BitVec 4) :=
  match stepAt s with
  | .next t => some t.status.errcode
  | _ => none

theorem test_capacity_argument : smallCode (small (2 ^ 64 - 2) 1 0x01000303#32) = some 0#4 ∧
    smallCode (small (2 ^ 64 - 1) 1 0x01000303#32) = some 5#4 ∧ Config.paramValue 2 = 0x00022008#32 := by
  decide +kernel
/-- R63's windows at two limbs: 8 bytes each, the last limb of B7 at `0x103C`, and nothing after it (log 7). -/
theorem test_capacity_map : locate 0x103C#15 2 = .limb 7 1 ∧ locate 0x1040#15 2 = .reserved := by decide +kernel

/-! ### The bus, acceptance, abort and reset (95_test_vectors.md 2.2, 2.14) -/

/-- The state after one host access at `off`. -/
def port (s : State) (off : Offset) (op : HostOp) : State :=
  after (step { s with agenda := [.port off op] })

/-- The state of 2.2: B0 holds `0x1_0000_0005` and B7 holds `-1`. -/
def hosted : State := (State.reset.writeVal 0 0x100000005).writeVal 7 (-1)

/-- The same with LDI B1, 42 in execution. -/
def busyHosted : State := hosted.accept 0x02A00101#32

def rd (s : State) (off : Offset) : Option Response := (port s off (.read .w32)).response

theorem test_bus_limbs : rd hosted 0x1000 = some (.readData 5#32) ∧ rd hosted 0x1004 = some (.readData 1#32) ∧
    rd hosted 0x17FC = some (.readData 0#32) ∧ rd hosted 0x4800 = some (.readData 1#32) := by decide +kernel
theorem test_bus_sign : rd hosted 0x018 = some (.readData 0x80#32) := by decide +kernel
theorem test_bus_ident : rd hosted 0x000 = some (.readData 0x52534131#32) ∧
    rd hosted 0x004 = some (.readData 0x02002008#32) ∧ rd hosted 0x7FFC = some (.readData 0#32) := by decide +kernel
theorem test_bus_errors : (port hosted 0x1000 (.read .w8)).response = some (.readError 0#32) ∧
    (port hosted 0x1002 (.read .w32)).response = some (.readError 0#32) ∧
    (port hosted 0x008 (.write .w16 1#32)).response = some .writeError := by decide +kernel
theorem test_bus_busy_reads : rd busyHosted 0x1000 = some (.readData 0#32) ∧ rd busyHosted 0x018 = some (.readData 0#32) ∧
    rd busyHosted 0x010 = some (.readData 0x02A00101#32) := by decide +kernel
theorem test_bus_busy_write : (port busyHosted 0x1000 (.write .w32 9#32)).status.werr = true ∧
    (port busyHosted 0x1000 (.write .w32 9#32)).regs = hosted.regs := by decide +kernel
theorem test_ctrl_abort : (port busyHosted 0x008 (.write .w32 3#32)).status.toWord = 0x706#32 ∧
    (port busyHosted 0x008 (.write .w32 3#32)).irq = true := by decide +kernel
theorem test_ctrl_soft_reset : let t := port busyHosted 0x008 (.write .w32 7#32)
    (t.status.toWord, t.ctrl.toWord, t.cmdLast, t.sign) = (0#32, 0#32, 0#32, 0x80#8) ∧ t.regs = hosted.regs := by
  decide +kernel
theorem test_status_ignores_other_bits :
    let s := run (base 5 0 0) 0x01000319
    (port s 0x00C (.write .w32 0xF05#32)).status = s.status := by decide +kernel
theorem test_status_clears_done :
    let s := run (base 5 0 0) 0x01000319
    (port s 0x00C (.write .w32 2#32)).status.toWord = 0x104#32 := by decide +kernel
theorem test_reset : State.reset.status.toWord = 0#32 ∧ State.reset.ctrl.toWord = 0#32 ∧ State.reset.sign = 0#8 ∧
    State.reset.flags.toWord = 0#32 ∧ State.reset.cmdLast = 0#32 := by decide
theorem test_power_on : (after (step { busyHosted with agenda := [.powerOn] })).regs = Memory.powerOn := by
  decide +kernel

/-! ### Witnesses: for every obligation with hypotheses, a state and operands that meet them, clause by clause -/

theorem witness_DecodeEncodeAgree : (Instr.egcd 2 3 4 0 1).wellFormed = true := by decide
theorem witness_EncodeDecodeAgree : decode 0xFFF00101#32 = .ok (.ldi 1 4095#12) := by decide
theorem witness_DecodeAcceptsExactlyLegalWords : (opcodeOf 0x01000208#32).toNat ∉ [0x01, 0x02, 0x03, 0x04, 0x05, 0x06,
    0x07, 0x10, 0x18, 0x19, 0x1A, 0x20, 0x28, 0x30, 0x38, 0x39, 0x3A] := by decide
theorem witness_OpcodeTableAgreesWithDecode :
    (⟨"DIVMOD", 0x00000018#32, 0xF88F88FF#32⟩ : OpcodeRow) ∈ opcodeTable ∧
    decode 0x01003218#32 = .ok (.divmod 2 3 0 1) ∧ 0x01003218#32 &&& 0xF88F88FF#32 = 0x00000018#32 ∧
    0x01002218#32 &&& 0xF88F88FF#32 = 0x00000018#32 := by decide

/-- The sum is MAXMAG, and one more. -/
theorem witness_AddIsExactOrExceedsCapacity :
    ((base (maxmag - 1) 1 0).val 0 + (base (maxmag - 1) 1 0).val 1).natAbs ≤ Config.maxMag ∧
    Config.maxMag < ((base maxmag 1 0).val 0 + (base maxmag 1 0).val 1).natAbs := by decide +kernel
theorem witness_SubIsExactOrExceedsCapacity :
    ((base (1 - maxmag) 1 0).val 0 - (base (1 - maxmag) 1 0).val 1).natAbs ≤ Config.maxMag ∧
    Config.maxMag < ((base (-maxmag) 1 0).val 0 - (base (-maxmag) 1 0).val 1).natAbs := by decide +kernel
/-- `2^8192 * 2^8191` fits and `2^8192 * 2^8192` is one more than MAXMAG (R143). -/
theorem witness_MulIsExactOrExceedsCapacity :
    ((base (2 ^ 8192) (2 ^ 8191) 0).val 0).natAbs * ((base (2 ^ 8192) (2 ^ 8191) 0).val 1).natAbs ≤ Config.maxMag ∧
    Config.maxMag < ((base (2 ^ 8192) (-2 ^ 8192) 0).val 0).natAbs * ((base (2 ^ 8192) (-2 ^ 8192) 0).val 1).natAbs := by
  decide +kernel
theorem witness_DivmodIsEuclidean : (2 : Reg) ≠ 3 ∧ (base (-7) (-1) 0).val 1 ≠ 0 ∧ (base 7 0 0).val 1 = 0 ∧
    (3 : Reg) = 3 := by decide +kernel
theorem witness_DivIsTheEuclideanQuotient : (base (-7) (-1) 0).val 1 ≠ 0 ∧ (base 7 0 0).val 1 = 0 := by decide +kernel
theorem witness_ModIsTheEuclideanRemainder : (base (-7) 1 0).val 1 ≠ 0 ∧ (base 7 0 0).val 1 = 0 := by decide +kernel
theorem witness_ModmulReducesTheProduct : 0 < (base 12 13 1).val 2 ∧ (base 3 4 0).val 2 ≤ 0 := by decide +kernel
theorem witness_ModexpIsThePowerModulo : (0 < (base 7 0 1).val 2 ∧ 0 ≤ (base 7 0 1).val 1) ∧
    (0 < (base 5 (-1) 1).val 2 ∧ (base 5 (-1) 1).val 1 < 0) ∧ (base 5 (-1) 0).val 2 ≤ 0 := by decide +kernel
/-- The base at both ends of `[2, n - 2]`, and each way out of the domain. -/
theorem witness_MrroundRunsOneRound :
    (5 ≤ (base 5 2 0).val 0 ∧ (base 5 2 0).val 0 % 2 = 1 ∧ 2 ≤ (base 5 2 0).val 1 ∧
      (base 5 2 0).val 1 ≤ (base 5 2 0).val 0 - 2) ∧ (base 5 3 0).val 1 ≤ (base 5 3 0).val 0 - 2 ∧
    (base 4 2 0).val 0 < 5 ∧ (base 100 3 0).val 0 % 2 = 0 ∧ (base 5 1 0).val 1 < 2 ∧
    (base 5 4 0).val 0 - 2 < (base 5 4 0).val 1 := by decide +kernel
theorem witness_EgcdFollowsTheAlgorithm : [(2 : Reg), 3, 4].Nodup ∧ ¬[(2 : Reg), 3, 2].Nodup := by decide
theorem witness_ModinvIsTheInverse :
    (0 < (base 5 1 0).val 1 ∧ Int.gcd ((base 5 1 0).val 0) ((base 5 1 0).val 1) = 1) ∧
    (2 ≤ (base 1 2 0).val 1 ∧ Int.gcd ((base 1 2 0).val 0) ((base 1 2 0).val 1) = 1) ∧
    (0 < (base 4 8 0).val 1 ∧ Int.gcd ((base 4 8 0).val 0) ((base 4 8 0).val 1) ≠ 1) ∧
    (base 4 0 0).val 1 ≤ 0 := by decide +kernel

theorem witness_DivisionByZeroExactlyWhen : ∃ t, (Instr.divmod 2 3 0 1).wellFormed = true ∧
    exec (.divmod 2 3 0 1) (base 7 0 0) = .next t ∧ (base 7 0 0).val 1 = 0 ∧ t.status.errcode = 1#4 :=
  ⟨_, by decide, rfl, by decide +kernel, by decide +kernel⟩
theorem witness_ModulusErrorsExactlyWhen : ∃ t u, (Instr.modinv 3 0 1).wellFormed = true ∧
    (exec (.modinv 3 0 1) (base 4 0 0) = .next t ∧ (base 4 0 0).val 1 ≤ 0) ∧
    (exec (.modinv 3 0 1) (base 4 8 0) = .next u ∧ 0 < (base 4 8 0).val 1 ∧
      Int.gcd ((base 4 8 0).val 0) ((base 4 8 0).val 1) ≠ 1) :=
  ⟨_, _, by decide, ⟨rfl, by decide +kernel⟩, rfl, by decide +kernel⟩
theorem witness_InvalidOperandExactlyWhen : ∃ t u, (Instr.modexp 3 0 1 2).wellFormed = true ∧
    exec (.modexp 3 0 1 2) (base 5 (-1) 1) = .next t ∧ 0 < (base 5 (-1) 1).val 2 ∧ (base 5 (-1) 1).val 1 < 0 ∧
    exec (.mrround 0 1) (base 4 2 0) = .next u ∧ (base 4 2 0).val 0 < 5 :=
  ⟨_, _, by decide, rfl, by decide +kernel, by decide +kernel, rfl, by decide +kernel⟩
theorem witness_CapacityExceededExactlyWhen : ∃ t, (Instr.mul 3 0 1).wellFormed = true ∧
    exec (.mul 3 0 1) (base maxmag 2 0) = .next t ∧
    Config.maxMag < ((base maxmag 2 0).val 0 * (base maxmag 2 0).val 1).natAbs :=
  ⟨_, by decide, rfl, by decide +kernel⟩
theorem witness_ErrorsAreListedAndWriteNothing : ∃ t, (Instr.add 3 0 1).wellFormed = true ∧
    exec (.add 3 0 1) (base maxmag 1 0) = .next t :=
  ⟨_, by decide, rfl⟩

/-- A busy CORE, LDI B1, 42 in execution, with `e` next. -/
def busyNext (e : Event) : State := { State.reset.accept 0x02A00101#32 with agenda := [e] }

/-- An idle CORE with `e` next. -/
def idleNext (e : Event) : State := { State.reset with agenda := [e] }

/-- A busy CORE with nothing on the agenda. -/
def busyAlone (w : Word) : State := State.reset.accept w

theorem witness_StepRunsTheDecodedCommand :
    ((busyAlone 0x02A00101#32).status.busy = true ∧ (busyAlone 0x02A00101#32).agenda = [] ∧ decode (busyAlone 0x02A00101#32).cmdLast = .ok (.ldi 1 42#12)) ∧
    ((busyNext .complete).status.busy = true ∧ (busyNext .complete).agenda.head? = some .complete) ∧
    (State.reset.status.busy = false ∧ State.reset.agenda = []) ∧
    ((idleNext .complete).status.busy = false ∧ (idleNext .complete).agenda.head? = some .complete) := by decide +kernel
theorem witness_IllegalWordsCompleteWithTheirCode :
    (busyAlone 0#32).status.busy = true ∧ (busyAlone 0#32).agenda = [] ∧
    legal (busyAlone 0#32).cmdLast = false := by decide +kernel
/-- `Encoded.illegal`, for each opcode of format R: a word with its opcode and every other bit set is illegal. -/
theorem witness_Encoded_illegal :
    [0x02, 0x03, 0x04, 0x05, 0x06, 0x07, 0x10, 0x18, 0x19, 0x1A, 0x20, 0x28, 0x30, 0x38, 0x39, 0x3A].all (fun op =>
      let s := busyAlone (0xFFFFFF00#32 + BitVec.ofNat 32 op)
      s.status.busy && nextEvent s == .complete && opcodeOf s.cmdLast == BitVec.ofNat 8 op && !legal s.cmdLast)
      = true := by decide +kernel
theorem witness_LdiLoadsTheImmediate :
    [0x02A00901#32, 0x02A01101#32, 0x02A80101#32].all (fun w =>
      let s := busyAlone w
      s.status.busy && nextEvent s == .complete && opcodeOf s.cmdLast == 0x01#8
        && (s.cmdLast.getLsbD 11 || s.cmdLast.extractLsb' 12 8 != 0#8)) = true := by decide +kernel
theorem witness_EveryCommandTerminates : ∃ t, (busyNext .complete).status.busy = true ∧
    (busyNext .complete).agenda.head? = some .complete ∧ step (busyNext .complete) = .next t := ⟨_, rfl, rfl, rfl⟩
theorem witness_AcceptanceLatchesTheWord :
    ((idleNext (.port 0x010 (.write .w32 0#32))).agenda = .port 0x010#15 (.write .w32 0#32) :: [] ∧
      (idleNext (.port 0x010 (.write .w32 0#32))).status.busy = false) ∧
    (busyNext (.port 0x010 (.write .w32 0#32))).agenda = .port 0x010#15 (.write .w32 0#32) :: [] ∧
      (busyNext (.port 0x010 (.write .w32 0#32))).status.busy = true := by decide +kernel

/-- CMD, SIGN, both ends of the limb windows; ID, PARAM, FLAGS, both ends of both reserved ranges. -/
theorem witness_WritesWhileBusyAreRefused :
    ∀ off ∈ [0x010#15, 0x018#15, 0x1000#15, 0x4FFC#15, 0x000#15, 0x004#15, 0x014#15, 0x01C#15, 0x0FFC#15, 0x5000#15,
      0x7FFC#15], ∃ rest, (busyNext (.port off (.write .w32 9#32))).status.busy = true ∧ off.toNat % 4 = 0 ∧
      (busyNext (.port off (.write .w32 9#32))).agenda = .port off (.write .w32 9#32) :: rest := by
  intro off h
  refine ⟨[], rfl, ?_, rfl⟩
  fin_cases h <;> rfl
theorem witness_ReadsAnswerTheContents :
    ∀ off ∈ [0x018#15, 0x1000#15, 0x4FFC#15, 0x000#15, 0x004#15, 0x008#15, 0x00C#15, 0x010#15, 0x014#15],
      off.toNat % 4 = 0 ∧ (busyNext (.port off (.read .w32))).status.busy = true ∧
      (busyNext (.port off (.read .w32))).agenda = .port off (.read .w32) :: [] ∧
      (idleNext (.port off (.read .w32))).agenda = .port off (.read .w32) :: [] := by
  intro off h
  refine ⟨?_, rfl, rfl, rfl⟩
  fin_cases h <;> rfl
theorem witness_ReadsChangeNothing :
    (idleNext (.port 0x018 (.read .w32))).agenda = .port 0x018#15 (.read .w32) :: [] ∧
    (idleNext (.port 0x4FFC (.write .w32 9#32))).agenda = .port 0x4FFC#15 (.write .w32 9#32) :: [] ∧
    after (step (idleNext (.port 0x4FFC (.write .w32 9#32)))) ≠
      { State.reset with agenda := [], response := some .written } := ⟨rfl, rfl, by decide +kernel⟩
theorem witness_BadAccessesGetABusError :
    ((HostOp.read .w8).width ≠ .w32 ∧ (HostOp.write .w16 1#32).width ≠ .w32 ∧ (0x1002#15).toNat % 4 ≠ 0) ∧
    (idleNext (.port 0x1002 (.read .w8))).agenda = .port 0x1002#15 (.read .w8) :: [] := by decide +kernel
theorem witness_ReservedOffsetsReadZero :
    [0x01C#15, 0x0FFC#15, 0x5000#15, 0x7FFC#15].all (fun off => off.toNat % 4 = 0 ∧
      ((0x01C ≤ off.toNat ∧ off.toNat < 0x1000) ∨ 0x5000 ≤ off.toNat)) = true ∧
    (idleNext (.port 0x5000 (.read .w32))).agenda = .port 0x5000#15 (.read .w32) :: [] ∧
    (busyNext (.port 0x5000 (.write .w32 1#32))).agenda = .port 0x5000#15 (.write .w32 1#32) :: [] := by decide +kernel
theorem witness_IdentificationIsHardwired :
    (busyNext (.port 0x000 (.read .w32))).agenda = .port 0x000#15 (.read .w32) :: [] ∧
    (idleNext (.port 0x004 (.read .w32))).agenda = .port 0x004#15 (.read .w32) :: [] ∧
    (idleNext (.port 0x000 (.write .w32 1#32))).agenda = .port 0x000#15 (.write .w32 1#32) :: [] ∧
    (idleNext (.port 0x004 (.write .w32 1#32))).agenda = .port 0x004#15 (.write .w32 1#32) :: [] := by decide +kernel
theorem witness_LimbWindowSelectsTheLimb : [0x1000#15, 0x17FC#15, 0x1800#15, 0x4FFC#15].all
    (fun off => off.toNat % 4 = 0 ∧ 0x1000 ≤ off.toNat ∧ off.toNat < 0x5000) = true := by decide +kernel
/-- The last limb of B7. -/
theorem witness_LimbAccessWhileIdle : State.reset.status.busy = false ∧
    BitVec.ofNat 15 (0x1000 + 0x800 * (7 : Reg).val + 4 * (511 : Fin Config.maxLimbs).val) = 0x4FFC#15 ∧
    (idleNext (.port 0x4FFC (.write .w32 9#32))).agenda = .port 0x4FFC#15 (.write .w32 9#32) :: [] ∧
    (idleNext (.port 0x4FFC (.read .w32))).agenda = .port 0x4FFC#15 (.read .w32) :: [] := by decide +kernel
theorem witness_SignAccessWhileIdle : State.reset.status.busy = false ∧
    (idleNext (.port 0x018 (.write .w32 0xFF#32))).agenda = .port 0x018#15 (.write .w32 0xFF#32) :: [] ∧
    (idleNext (.port 0x018 (.read .w32))).agenda = .port 0x018#15 (.read .w32) :: [] := by decide +kernel
/-- ABORT with IE while busy; ABORT while idle; IE alone while busy; SRST. -/
theorem witness_CtrlWriteSetsEnableAndAborts :
    ((busyNext (.port 0x008 (.write .w32 3#32))).agenda = .port 0x008#15 (.write .w32 3#32) :: [] ∧
      (3#32).getLsbD 2 = false ∧ (3#32).getLsbD 1 = true ∧
      (busyNext (.port 0x008 (.write .w32 3#32))).status.busy = true) ∧
    ((idleNext (.port 0x008 (.write .w32 2#32))).agenda = .port 0x008#15 (.write .w32 2#32) :: [] ∧
      (2#32).getLsbD 2 = false ∧ (idleNext (.port 0x008 (.write .w32 2#32))).status.busy = false) ∧
    ((busyNext (.port 0x008 (.write .w32 1#32))).agenda = .port 0x008#15 (.write .w32 1#32) :: [] ∧
      (1#32).getLsbD 2 = false ∧ (1#32).getLsbD 1 = false) ∧
    (busyNext (.port 0x008 (.write .w32 7#32))).agenda = .port 0x008#15 (.write .w32 7#32) :: [] ∧
      (7#32).getLsbD 2 = true := by decide +kernel
theorem witness_SoftResetKeepsTheRegisters : (7#32).getLsbD 2 = true ∧
    (busyNext (.port 0x008 (.write .w32 7#32))).agenda = .port 0x008#15 (.write .w32 7#32) :: [] := by decide +kernel
theorem witness_PowerOnResetValues : (busyNext .powerOn).agenda = .powerOn :: [] := by decide +kernel
theorem witness_StatusRegisterAccess :
    (idleNext (.port 0x00C (.write .w32 0xA#32))).agenda = .port 0x00C#15 (.write .w32 0xA#32) :: [] ∧
    (busyNext (.port 0x00C (.read .w32))).agenda = .port 0x00C#15 (.read .w32) :: [] := by decide +kernel
theorem witness_FlagsRegisterAccess :
    (idleNext (.port 0x014 (.write .w32 0#32))).agenda = .port 0x014#15 (.write .w32 0#32) :: [] ∧
    (busyNext (.port 0x014 (.read .w32))).agenda = .port 0x014#15 (.read .w32) :: [] := by decide +kernel
/-- Each event, with what its clause asks for. -/
theorem witness_InterruptFollowsEnableAndDone :
    (∃ t, step (busyNext .complete) = .next t ∧ nextEvent (busyNext .complete) = .complete) ∧
    (∃ t, step (idleNext (.port 0x010 (.write .w32 0#32))) = .next t ∧
      nextEvent (idleNext (.port 0x010 (.write .w32 0#32))) = .port 0x010#15 (.write .w32 0#32)) ∧
    (∃ t, step (busyNext (.port 0x00C (.write .w32 2#32))) = .next t ∧
      nextEvent (busyNext (.port 0x00C (.write .w32 2#32))) = .port 0x00C#15 (.write .w32 2#32)) ∧
    (∃ t, step (busyNext (.port 0x008 (.write .w32 2#32))) = .next t ∧
      nextEvent (busyNext (.port 0x008 (.write .w32 2#32))) = .port 0x008#15 (.write .w32 2#32)) ∧
    (∃ t, step { (State.reset.raiseError .aborted) with agenda := [.port 0x008 (.write .w32 1#32)] } = .next t ∧
      (State.reset.raiseError .aborted).status.done = true ∧ (1#32).getLsbD 0 = true ∧ (1#32).getLsbD 2 = false) ∧
    (∃ t, step (busyNext (.port 0x7FFC (.write .w32 1#32))) = .next t ∧
      nextEvent (busyNext (.port 0x7FFC (.write .w32 1#32))) = .port 0x7FFC#15 (.write .w32 1#32) ∧
      (0x7FFC#15).toNat % 4 = 0 ∧ 0x7FFC#15 ≠ 0x008#15 ∧ 0x7FFC#15 ≠ 0x00C#15) :=
  ⟨⟨_, rfl, rfl⟩, ⟨_, rfl, rfl⟩, ⟨_, rfl, rfl⟩, ⟨_, rfl, rfl⟩, ⟨_, rfl, rfl, by decide, by decide⟩,
    ⟨_, rfl, rfl, by decide, by decide, by decide⟩⟩

theorem witness_LoadedLimbsGiveTheValue : ((-1 : Int)).natAbs ≤ Config.maxMag ∧
    (∀ i < 512, hosted.limb 7 i = BitVec.ofNat 32 ((-1 : Int).natAbs / 2 ^ (32 * i))) ∧
    (hosted.sgn 7 = true ↔ (-1 : Int) < 0) := by
  refine ⟨by decide +kernel, fun i hi => ?_, by decide⟩
  have h : hosted.limb 7 i = BitVec.ofNat 32 ((-1 : Int).natAbs / 2 ^ (32 * i)) :=
    writeVal_limb_same (State.reset.writeVal 0 0x100000005) 7 (v := -1) (by decide +kernel) hi
  exact h
theorem witness_AddThenSubReturnsTheOperand : (3 : Reg) ≠ 1 ∧
    ((base (maxmag - 1) 1 0).val 0 + (base (maxmag - 1) 1 0).val 1).natAbs ≤ Config.maxMag ∧
    Config.maxMag < ((base maxmag 1 0).val 0 + (base maxmag 1 0).val 1).natAbs := by decide +kernel
theorem witness_ModmulAgreesWithMulThenMod : 0 < (base 12 13 1).val 2 ∧
    ((base 12 13 1).val 0 * (base 12 13 1).val 1).natAbs ≤ Config.maxMag ∧ (3 : Reg) ≠ 2 := by decide +kernel
theorem witness_ExtendedEuclidIsBezout : (-7 : Int) ≠ 0 := by decide +kernel
theorem witness_BezoutCoefficientsAreBounded : maxmag.natAbs ≤ Config.maxMag ∧ (-maxmag).natAbs ≤ Config.maxMag := by
  decide +kernel
theorem witness_IterativeRoundGivesTheSamePass : (5 : Int) ≤ 97 ∧ (97 : Int) % 2 = 1 ∧ (2 : Int) ≤ 95 ∧
    (95 : Int) ≤ 97 - 2 ∧ (97 : Int) - 1 = 2 ^ 5 * (3 : Nat) ∧ 3 % 2 = 1 := by decide +kernel
theorem witness_StepKeepsTheInvariant : ∃ t, (busyAlone 0x02A00101#32).Inv ∧ step (busyAlone 0x02A00101#32) = .next t :=
  ⟨_, ⟨memory_powerOn_wf, by decide, by decide, by decide, by decide⟩, rfl⟩
theorem witness_RegistersChangeOnlyByTheirWriters :
    (∃ t, step (idleNext (.port 0x4FFC (.write .w32 9#32))) = .next t ∧ t.regs[7] ≠ State.reset.regs[7]) ∧
    (∃ t, step (busyNext .complete) = .next t ∧ t.regs[1] ≠ State.reset.regs[1]) ∧
    (∃ t, step { busyNext .powerOn with sign := 0x80#8 } = .next t ∧ t.sgn 7 ≠ true) :=
  ⟨⟨_, rfl, by decide +kernel⟩, ⟨_, rfl, by decide +kernel⟩, ⟨_, rfl, by decide +kernel⟩⟩
theorem witness_FlagsChangeOnlyBySuccessOrReset :
    (∃ t, step ((State.reset.accept 0x00000001#32)) = .next t ∧ t.flags ≠ State.reset.flags) ∧
    (∃ t, step { run (base 0 0 0) 0x00000001 with agenda := [.port 0x008 (.write .w32 4#32)] } = .next t ∧
      t.flags ≠ (run (base 0 0 0) 0x00000001).flags) :=
  ⟨⟨_, rfl, by decide +kernel⟩, ⟨_, rfl, by decide +kernel⟩⟩
theorem witness_BusAccessesAreRoutedByTheWindow :
    (idleNext (.bus (Config.coreBase + (0x7FFC#15).toNat) (.read .w32))).agenda =
      .bus (Config.coreBase + (0x7FFC#15).toNat) (.read .w32) :: [] ∧
    (idleNext (.bus (Config.coreBase + 0x8000) (.read .w32))).agenda =
      .bus (Config.coreBase + 0x8000) (.read .w32) :: [] ∧
    Config.coreBase + 0x8000 ≤ Config.coreBase + 0x8000 := ⟨rfl, rfl, Nat.le_refl _⟩
/-- A read of an undefined limb is stopped; the next step from reset is not. -/
theorem witness_GuardedStepStopsAtUndefinedLimbs :
    guardedStep (idleNext (.port 0x2000 (.read .w32))) = .fault .undefinedLimb ∧
    guardedStep State.reset ≠ .fault .undefinedLimb :=
  ⟨if_pos (by decide +kernel), fun h => by rw [guardedStep, if_neg (by decide +kernel)] at h; cases h⟩
theorem witness_SafeStepsIgnorePowerOnContents :
    (idleNext (.port 0x7FFC (.read .w32))).SafeStep ∧ nextEvent (idleNext (.port 0x7FFC (.read .w32))) ≠ .powerOn := by
  unfold State.SafeStep
  decide +kernel

end Sys2Proof.Tests
end

section
/-! A safe step ignores the unspecified power-on contents (00_scope.md R19, 10_state.md R40; logs 1, 2). Changing
`powerOns` commutes with every operation that reads no limb storage; a safe read shows a defined limb, and a safe
completion has sources with every limb defined. -/

namespace Sys2Proof.Machine

variable {maxLimbs : Nat}

/-! ### Host accesses -/

/-- A defined limb reads as its stored bits, whatever the power-on contents. -/
theorem limb_powerOns {s : State maxLimbs} (k : Nat) {r : Reg} {i : Nat} (h : s.regs[r].defd.getLsbD i = true) :
    State.limb { s with powerOns := k } r i = s.limb r i :=
  (limb_of_defd (s := { s with powerOns := k }) h).trans (limb_of_defd h).symm

/-- Only the idle read of an undefined limb shows the power-on contents. -/
theorem readLocation_powerOns {s : State maxLimbs} (k : Nat) {l : Location maxLimbs}
    (h : ∀ r i, l = .limb r i → s.status.busy = true ∨ s.regs[r].defd.getLsbD i = true) :
    State.readLocation { s with powerOns := k } l = s.readLocation l := by
  cases l with
  | limb r i =>
    rcases h r i rfl with hb | hd
    · simp only [State.readLocation, hb, if_true]
    · simp only [State.readLocation, limb_powerOns k hd]
  | _ => rfl

/-- A write reads no limb storage, so it commutes with any change of the power-on contents. -/
theorem writeLocation_powerOns_comm (s : State maxLimbs) (k : Nat) (v : Word) (l : Location maxLimbs) :
    State.writeLocation { s with powerOns := k } v l = { s.writeLocation v l with powerOns := k } := by
  cases l with
  | ctrl => simp only [State.writeLocation, State.writeCtrl, State.abort]; split_ifs <;> rfl
  | cmd => simp only [State.writeLocation]; split_ifs <;> rfl
  | sign => simp only [State.writeLocation]; split_ifs <;> rfl
  | limb r i => simp only [State.writeLocation]; split_ifs <;> rfl
  | _ => rfl

/-- An access that shows no undefined limb does the same with any power-on contents (R40, R69). -/
theorem access_powerOns_comm {s : State} (k : Nat) {off : Offset} {op : HostOp}
    (h : readsUndefinedLimb s off op = false) :
    State.access { s with powerOns := k } off op = { s.access off op with powerOns := k } := by
  by_cases hok : accessOk off op = true
  · cases op with
    | write w v => simp only [State.access, hok, if_true, writeLocation_powerOns_comm]
    | read w =>
      obtain ⟨rfl, h4⟩ : w = .w32 ∧ off.toNat % 4 = 0 := accessOk_iff.1 hok
      have hdef : ∀ r i, locate off = .limb r i → s.status.busy = true ∨ s.regs[r].defd.getLsbD i = true := by
        intro r i hl
        by_contra hn
        simp only [not_or, Bool.not_eq_true] at hn
        exact Bool.eq_false_iff.1 h ((readsUndefinedLimb_iff s off _).2 ⟨hn.1, rfl, h4, r, i, hl, hn.2⟩)
      rw [access_read _ hok, access_read _ hok, readLocation_powerOns k hdef]
  · cases op <;> simp only [State.access, hok] <;> rfl

/-! ### What a safe step is, by its event -/

/-- A safe completion of a legal word has sources with every limb defined. -/
theorem sources_defined_of_safeStep {s : State} {i : Instr} (h : s.SafeStep) (he : nextEvent s = .complete)
    (hb : s.status.busy = true) (hd : decode s.cmdLast = .ok i) : ∀ r ∈ i.sources, s.regs[r].allDefined = true := by
  simpa [State.SafeStep, usesUndefinedLimb, he, hb, State.currentCommand, hd] using h

/-- A safe host access shows no undefined limb. -/
theorem readsUndefinedLimb_of_safeStep {s : State} {off : Offset} {op : HostOp} (h : s.SafeStep)
    (ha : AccessAt s off op) : readsUndefinedLimb s off op = false := by
  unfold State.SafeStep usesUndefinedLimb at h
  rcases ha with he | ⟨addr, he, hr⟩
  · simpa only [he] using h
  · simpa only [he, hr] using h

/-! ### Steps by their event -/

theorem step_of_accessAt {s : State} {off : Offset} {op : HostOp} (h : AccessAt s off op) :
    step s = .next (s.popped.access off op) := by
  rcases h with he | ⟨addr, he, hr⟩
  · simp only [step, applyEvent, he]
  · simp only [step, applyEvent, he, State.busAccess, hr]

theorem step_bus_outside {s : State} {addr : Nat} {op : HostOp} (he : nextEvent s = .bus addr op)
    (hr : route addr = none) : step s = .next s.popped := by
  simp only [step, applyEvent, he, State.busAccess, hr]

/-- Settles O60: by the cases of `step`, each of which commutes with the change of the power-on contents. -/
theorem safeStepsIgnorePowerOnContents : Obligations.SafeStepsIgnorePowerOnContents := by
  intro s k hsafe hpow
  obtain ⟨t, ht⟩ := step_next s
  refine ⟨t, ht, ?_⟩
  rcases step_cases ht with ⟨he, hb, rfl⟩ | ⟨he, hb, i, hd, hx⟩ | ⟨he, hb, ⟨e, hd⟩, rfl⟩ | ⟨off, op, ha, rfl⟩ |
    ⟨addr, op, he, hr, rfl⟩ | ⟨he, -⟩
  · exact step_complete_idle (s := { s with powerOns := k }) he hb
  · obtain ⟨t', ht', hk⟩ := exec_powerOns_comm i s.popped k (sources_defined_of_safeStep (s := s) hsafe he hb hd)
    obtain rfl : t' = t := by rw [ht'] at hx; cases hx; rfl
    exact (step_complete_ok (s := { s with powerOns := k }) he hb hd).trans hk
  · exact step_complete_error (s := { s with powerOns := k }) he hb hd
  · have hread : readsUndefinedLimb s.popped off op = false :=
      readsUndefinedLimb_of_safeStep (s := s) hsafe ha
    rw [step_of_accessAt (s := { s with powerOns := k }) ha]
    exact congrArg _ (access_powerOns_comm k hread)
  · exact step_bus_outside (s := { s with powerOns := k }) he hr
  · exact absurd he hpow

end Sys2Proof.Machine
end

section
/-! The rules of 10_state.md: what a host access to ID, PARAM, STATUS and FLAGS does, the value of a register, the
invariant of every step, who writes a register and FLAGS, and where R40 stops a step. -/

namespace Sys2Proof.Machine

variable {maxLimbs : Nat}

/-! ### The invariant -/

/-- The invariant does not look at the agenda. -/
theorem inv_popped {s : State} (h : s.Inv) : s.popped.Inv := Inv_congr h rfl rfl rfl

theorem inv_exec {i : Instr} {s t : State} (h : s.Inv) (hx : exec i s = .next t) : t.Inv := by
  rcases exec_cases hx with ⟨V, f, -, -, hf, -, rfl⟩ | ⟨e, rfl⟩
  · exact inv_commit h V hf
  · exact inv_raiseError h e

theorem inv_reset : State.reset.Inv :=
  ⟨memory_powerOn_wf, by decide, by decide, by decide, rfl⟩

/-- Power-on reset establishes the invariant, whatever the state before it. -/
theorem inv_powerOnReset (s : State) : s.powerOnReset.Inv := Inv_congr inv_reset rfl rfl rfl

/-- Settles O54: by the cases of `step`; each operation a step performs keeps the invariant. -/
theorem stepKeepsTheInvariant : Obligations.StepKeepsTheInvariant := by
  intro s t h hstep
  have hp : s.popped.Inv := inv_popped h
  rcases step_cases hstep with ⟨-, -, rfl⟩ | ⟨-, -, i, -, hx⟩ | ⟨-, -, -, rfl⟩ | ⟨off, op, -, rfl⟩ | ⟨_, _, -, -, rfl⟩ |
    ⟨-, rfl⟩
  · exact hp
  · exact inv_exec hp hx
  · exact inv_raiseError hp _
  · exact inv_access hp off op
  · exact hp
  · exact inv_powerOnReset _

/-- Settles O55: the reset state, field by field. -/
theorem resetMeetsTheInvariant : Obligations.ResetMeetsTheInvariant := inv_reset

/-! ### Host accesses to a control register -/

/-- What a location reads as does not depend on the agenda. -/
theorem readLocation_agenda (s : State maxLimbs) (es : List Event) (l : Location maxLimbs) :
    State.readLocation { s with agenda := es } l = s.readLocation l := by
  cases l <;> rfl

/-- The step of an aligned 32-bit read at the port: the answer is what the location reads as (R62, R69, R70). -/
theorem step_port_read {s : State} {off : Offset} {rest : List Event} (h4 : off.toNat % 4 = 0)
    (h : s.agenda = .port off (.read .w32) :: rest) :
    step s = .next { s with agenda := rest, response := some (.readData (s.readLocation (locate off))) } := by
  rw [step_port h, access_read _ (accessOk_iff.2 ⟨rfl, h4⟩), readLocation_agenda]

/-- The step of an aligned 32-bit write at the port: the effect of the write on its location (R62, R66). -/
theorem step_port_write {s : State} {off : Offset} {v : Word} {rest : List Event} (h4 : off.toNat % 4 = 0)
    (h : s.agenda = .port off (.write .w32 v) :: rest) :
    step s = .next
      { State.writeLocation { s with agenda := rest } v (locate off) with response := some .written } := by
  rw [step_port h, access_write _ (accessOk_iff.2 ⟨rfl, h4⟩)]

/-- Settles O37: neither location depends on the state, and a write to either is the identity. -/
theorem identificationIsHardwired : Obligations.IdentificationIsHardwired := by
  intro s rest
  refine ⟨step_port_read rfl, step_port_read rfl, fun v h => ?_⟩
  rcases h with h | h <;> exact step_port_write rfl h

/-- A bit of a word, from the word as a number. -/
theorem getLsbD_of_toNat {w : Word} {b : Bool} (k : Nat) (h : w.toNat / 2 ^ k % 2 = b.toNat) : w.getLsbD k = b := by
  rw [BitVec.getLsbD, Nat.testBit_eq_decide_div_mod_eq, h]
  cases b <;> rfl

/-- A field of a word, from the word as a number. -/
theorem extractLsb'_of_toNat {w : Word} {n : Nat} {x : BitVec n} (lo : Nat) (h : w.toNat / 2 ^ lo % 2 ^ n = x.toNat) :
    w.extractLsb' lo n = x := by
  apply BitVec.eq_of_toNat_eq
  rw [BitVec.extractLsb'_toNat, Nat.shiftRight_eq_div_pow, h]

/-- The fields of STATUS stand in their places, and the bits between and above them are 0 (R30). -/
theorem status_toWord_fields (t : Status) :
    t.toWord.getLsbD 0 = t.busy ∧ t.toWord.getLsbD 1 = t.done ∧ t.toWord.getLsbD 2 = t.err ∧
      t.toWord.getLsbD 3 = t.werr ∧ t.toWord.extractLsb' 4 4 = 0#4 ∧ t.toWord.extractLsb' 8 4 = t.errcode ∧
      t.toWord.extractLsb' 12 20 = 0#20 := by
  have hb := t.busy.toNat_le
  have hd := t.done.toNat_le
  have he := t.err.toNat_le
  have hw := t.werr.toNat_le
  have hc := t.errcode.isLt
  have hn : t.toWord.toNat =
      t.busy.toNat + 2 * t.done.toNat + 4 * t.err.toNat + 8 * t.werr.toNat + 256 * t.errcode.toNat :=
    Nat.mod_eq_of_lt (by omega)
  refine ⟨getLsbD_of_toNat 0 ?_, getLsbD_of_toNat 1 ?_, getLsbD_of_toNat 2 ?_, getLsbD_of_toNat 3 ?_,
    extractLsb'_of_toNat 4 ?_, extractLsb'_of_toNat 8 ?_, extractLsb'_of_toNat 12 ?_⟩ <;>
    simp only [hn, BitVec.toNat_ofNat] <;> omega

/-- The flags stand in their places, and the bits above them are 0 (R32). -/
theorem flags_toWord_fields (f : Flags) :
    f.toWord.getLsbD 0 = f.z ∧ f.toWord.getLsbD 1 = f.n ∧ f.toWord.getLsbD 2 = f.odd ∧ f.toWord.getLsbD 3 = f.lt ∧
      f.toWord.getLsbD 4 = f.eq ∧ f.toWord.getLsbD 5 = f.gt ∧ f.toWord.getLsbD 6 = f.pass ∧
      f.toWord.extractLsb' 7 25 = 0#25 := by
  have hz := f.z.toNat_le
  have hn := f.n.toNat_le
  have ho := f.odd.toNat_le
  have hl := f.lt.toNat_le
  have he := f.eq.toNat_le
  have hg := f.gt.toNat_le
  have hp := f.pass.toNat_le
  have hw : f.toWord.toNat = f.z.toNat + 2 * f.n.toNat + 4 * f.odd.toNat + 8 * f.lt.toNat + 16 * f.eq.toNat +
      32 * f.gt.toNat + 64 * f.pass.toNat :=
    Nat.mod_eq_of_lt (by omega)
  refine ⟨getLsbD_of_toNat 0 ?_, getLsbD_of_toNat 1 ?_, getLsbD_of_toNat 2 ?_, getLsbD_of_toNat 3 ?_,
    getLsbD_of_toNat 4 ?_, getLsbD_of_toNat 5 ?_, getLsbD_of_toNat 6 ?_, extractLsb'_of_toNat 7 ?_⟩ <;>
    simp only [hw, BitVec.toNat_ofNat] <;> omega

/-- Settles O44: a write is the acknowledgement; a read is `Status.toWord`, read back field by field. -/
theorem statusRegisterAccess : Obligations.StatusRegisterAccess := by
  intro s rest
  exact ⟨fun _ h => step_port_write rfl h,
    fun h => ⟨s.status.toWord, step_port_read rfl h, status_toWord_fields s.status⟩⟩

/-- Settles O45: a write is the identity; a read is `Flags.toWord`, read back flag by flag. -/
theorem flagsRegisterAccess : Obligations.FlagsRegisterAccess := by
  intro s rest
  exact ⟨fun _ h => step_port_write rfl h,
    fun h => ⟨s.flags.toWord, step_port_read rfl h, flags_toWord_fields s.flags⟩⟩

/-! ### Power-on reset and the value of a register -/

theorem memory_powerOn_defd (r : Reg) (i : Nat) : (Memory.powerOn : Memory maxLimbs)[r].defd.getLsbD i = false := by
  simp [Memory.powerOn]

/-- Settles O43: the event is `State.powerOnReset`; its values are those of `State.reset`. -/
theorem powerOnResetValues : Obligations.PowerOnResetValues :=
  ⟨fun _ _ h => step_powerOn h, rfl, rfl, rfl, rfl, rfl, rfl, memory_powerOn_defd⟩

/-- Settles O47: the magnitude is the sum of R21 on both branches of its definition, and that sum is within
capacity. -/
theorem valueIsTheSignedLimbSum : Obligations.ValueIsTheSignedLimbSum := by
  intro s r
  exact ⟨(magnitude_eq_limbSum s r).trans (limbSum_eq_sum _ _), magnitude_le s r, rfl⟩

/-! ### The writers of a register -/

/-- Register `r` is in `t` as it was in `s`: limbs, `def` flags and sign bit. -/
def SameReg (s t : State maxLimbs) (r : Reg) : Prop := t.regs[r] = s.regs[r] ∧ t.sgn r = s.sgn r

theorem sameReg_iff {s t : State maxLimbs} {r : Reg} :
    ¬SameReg s t r ↔ t.regs[r] ≠ s.regs[r] ∨ t.sgn r ≠ s.sgn r := not_and_or

/-- What keeps the limb storage and SIGN keeps every register. -/
theorem sameReg_of_eq {s t : State maxLimbs} (hr : t.regs = s.regs) (hs : t.sign = s.sign) (r : Reg) :
    SameReg s t r := by
  simp only [SameReg, State.sgn, hr, hs, and_self]

theorem writeLimb_sameReg (s : State maxLimbs) {r r' : Reg} (i : Nat) (v : Word) (h : r' ≠ r) :
    SameReg s (s.writeLimb r i v) r' := by
  refine ⟨?_, rfl⟩
  simp only [writeLimb_regs, Fin.getElem_fin]
  exact Vector.getElem_set_ne _ _ fun e => h (Fin.ext e.symm)

theorem writeCtrl_sameReg (s : State maxLimbs) (v : Word) (r : Reg) : SameReg s (s.writeCtrl v) r := by
  rcases writeCtrl_cases s v with ⟨-, e⟩ | ⟨-, -, -, e⟩ | ⟨-, -, e⟩ <;> rw [e] <;> exact sameReg_of_eq rfl rfl r

/-- A write of a location that changes a register is an idle one to SIGN or to a limb of that register (R66 to
R68). -/
theorem writeLocation_changes_reg {s : State maxLimbs} {v : Word} {l : Location maxLimbs} {r : Reg}
    (h : ¬SameReg s (s.writeLocation v l) r) : s.status.busy = false ∧ (l = .sign ∨ ∃ i, l = .limb r i) := by
  rcases writeLocation_cases s v l with ⟨-, e⟩ | ⟨-, e⟩ | ⟨-, -, e⟩ | ⟨hl, hb, e⟩ | ⟨r', i, hl, hb, e⟩ | ⟨-, e⟩ | e <;>
    rw [e] at h
  · exact absurd (writeCtrl_sameReg s v r) h
  · exact absurd (sameReg_of_eq rfl rfl r) h
  · exact absurd (sameReg_of_eq rfl rfl r) h
  · exact ⟨hb, .inl hl⟩
  · obtain rfl : r = r' := by
      by_contra hr
      exact h (writeLimb_sameReg s i v hr)
    exact ⟨hb, .inr ⟨i, hl⟩⟩
  · exact absurd (sameReg_of_eq rfl rfl r) h
  · exact absurd (sameReg_of_eq rfl rfl r) h

/-- A host access that changes a register is an idle 32-bit write to SIGN or to that register's window (R63, R65). -/
theorem access_changes_reg {s : State} {off : Offset} {op : HostOp} {r : Reg} (h : ¬SameReg s (s.access off op) r) :
    ∃ v, op = .write .w32 v ∧ s.status.busy = false ∧
      (off = 0x018#15 ∨ (0x1000 + 0x800 * r.val ≤ off.toNat ∧ off.toNat < 0x1800 + 0x800 * r.val)) := by
  rcases access_cases s off op with ⟨e, he⟩ | ⟨v, hop, -, he⟩ <;> rw [he] at h
  · exact absurd (sameReg_of_eq rfl rfl r) h
  · obtain ⟨hb, hl | ⟨i, hl⟩⟩ := writeLocation_changes_reg (s := s) (l := locate off) h
    · exact ⟨v, hop, hb, .inl (locate_sign_inv hl)⟩
    · obtain ⟨h1, h2, -⟩ := locate_limb_inv hl
      exact ⟨v, hop, hb, .inr ⟨h1, h2⟩⟩

/-- A command changes only the registers it names as destinations (R113, R225). -/
theorem exec_changes_reg {i : Instr} {s t : State} {r : Reg} (hx : exec i s = .next t) (h : ¬SameReg s t r) :
    r ∈ i.dests := by
  rcases exec_cases hx with ⟨V, f, hV, -, -, -, rfl⟩ | ⟨e, rfl⟩
  · by_contra hr
    exact h (writeAll_other s V (hV ▸ hr))
  · exact absurd (sameReg_of_eq rfl rfl r) h

/-- Settles O56: by the cases of `step`; only a write access, a command and power-on reset change a register. -/
theorem registersChangeOnlyByTheirWriters : Obligations.RegistersChangeOnlyByTheirWriters := by
  intro s t r hstep hne
  have h : ¬SameReg s.popped t r := sameReg_iff.2 hne
  rcases step_cases hstep with ⟨-, -, rfl⟩ | ⟨he, hb, i, hd, hx⟩ | ⟨-, -, -, rfl⟩ | ⟨off, op, ha, rfl⟩ |
    ⟨_, _, -, -, rfl⟩ | ⟨he, -⟩
  · exact absurd (sameReg_of_eq rfl rfl r) h
  · exact .inr (.inl ⟨i, hb, he, hd, exec_changes_reg hx h⟩)
  · exact absurd (sameReg_of_eq rfl rfl r) h
  · obtain ⟨v, rfl, hb, hoff⟩ := access_changes_reg h
    exact .inl ⟨off, v, hb, ha, hoff⟩
  · exact absurd (sameReg_of_eq rfl rfl r) h
  · exact .inr (.inr he)

/-! ### The writers of FLAGS -/

/-- A write of a location that changes FLAGS is a soft reset (R34, R251). -/
theorem writeLocation_changes_flags {s : State maxLimbs} {v : Word} {l : Location maxLimbs}
    (h : (s.writeLocation v l).flags ≠ s.flags) : l = .ctrl ∧ v.getLsbD 2 = true := by
  rcases writeLocation_cases s v l with ⟨hl, e⟩ | ⟨-, e⟩ | ⟨-, -, e⟩ | ⟨-, -, e⟩ | ⟨r, i, -, -, e⟩ | ⟨-, e⟩ | e <;>
    rw [e] at h
  · rcases writeCtrl_cases s v with ⟨hv, -⟩ | ⟨-, -, -, e⟩ | ⟨-, -, e⟩
    · exact ⟨hl, hv⟩
    all_goals rw [e] at h; exact absurd rfl h
  all_goals exact absurd rfl h

/-- A host access that changes FLAGS is a CTRL write with SRST (R34, R251). -/
theorem access_changes_flags {s : State} {off : Offset} {op : HostOp} (h : (s.access off op).flags ≠ s.flags) :
    ∃ v, op = .write .w32 v ∧ off = 0x008#15 ∧ v.getLsbD 2 = true := by
  rcases access_cases s off op with ⟨e, he⟩ | ⟨v, hop, -, he⟩ <;> rw [he] at h
  · exact absurd rfl h
  · obtain ⟨hl, hv⟩ := writeLocation_changes_flags h
    exact ⟨v, hop, locate_ctrl_inv hl, hv⟩

/-- A command that changes FLAGS completes without error (R34, R225). -/
theorem exec_changes_flags {i : Instr} {s t : State} (hx : exec i s = .next t) (h : t.flags ≠ s.flags) :
    t.status.err = false := by
  rcases exec_cases hx with ⟨V, f, -, -, -, -, rfl⟩ | ⟨e, rfl⟩
  · rfl
  · exact absurd rfl h

/-- Settles O57: by the cases of `step`; only a command without error, a soft reset and power-on reset write FLAGS. -/
theorem flagsChangeOnlyBySuccessOrReset : Obligations.FlagsChangeOnlyBySuccessOrReset := by
  intro s t hstep h
  rcases step_cases hstep with ⟨-, -, rfl⟩ | ⟨he, hb, i, -, hx⟩ | ⟨-, -, -, rfl⟩ | ⟨off, op, ha, rfl⟩ |
    ⟨_, _, -, -, rfl⟩ | ⟨he, -⟩
  · exact absurd rfl h
  · exact .inl ⟨hb, he, exec_changes_flags hx h⟩
  · exact absurd rfl h
  · obtain ⟨v, rfl, hoff, hv⟩ := access_changes_flags h
    exact .inr (.inl ⟨off, v, hoff, hv, ha⟩)
  · exact absurd rfl h
  · exact .inr (.inr he)

/-! ### Where R40 stops a step -/

/-- A register has an undefined limb exactly when not all its limbs are defined (R40). -/
theorem allDefined_eq_false_iff (b : BigReg maxLimbs) :
    b.allDefined = false ↔ ∃ j < maxLimbs, b.defd.getLsbD j = false := by
  rw [← Bool.not_eq_true, allDefined_iff]
  push Not
  simp only [Bool.not_eq_true]

/-- A step uses an undefined limb exactly when it completes a legal command with a source that has one, or is a host
access that shows one (R40). -/
theorem usesUndefinedLimb_iff (s : State) : usesUndefinedLimb s = true ↔
    (nextEvent s = .complete ∧ s.status.busy = true ∧ ∃ i, decode s.cmdLast = .ok i ∧
      ∃ r ∈ i.sources, s.regs[r].allDefined = false) ∨
    ∃ off op, AccessAt s off op ∧ readsUndefinedLimb s off op = true := by
  unfold usesUndefinedLimb AccessAt
  cases nextEvent s with
  | port off op => simp
  | bus addr op => cases hr : route addr <;> simp [hr]
  | complete => cases hd : decode s.cmdLast <;> simp [State.currentCommand, hd]
  | powerOn => simp

/-- The guarded step faults exactly at a use of an undefined limb, for `step` itself never faults. -/
theorem guardedStep_fault_iff (s : State) : guardedStep s = .fault .undefinedLimb ↔ usesUndefinedLimb s = true := by
  obtain ⟨t, ht⟩ := step_next s
  by_cases hu : usesUndefinedLimb s = true
  · simp only [guardedStep, hu, if_true]
  · rw [guardedStep, if_neg hu, ht]
    simp only [hu, reduceCtorEq]

/-- Settles O59: the two uses of an undefined limb, a completion's and a read's. -/
theorem guardedStepStopsAtUndefinedLimbs : Obligations.GuardedStepStopsAtUndefinedLimbs := by
  intro s
  refine ⟨?_, fun h => if_neg fun hu => h ((guardedStep_fault_iff s).2 hu)⟩
  rw [guardedStep_fault_iff, usesUndefinedLimb_iff]
  refine or_congr ?_ ?_
  · simp only [allDefined_eq_false_iff]
    exact and_left_comm
  · simp only [readsUndefinedLimb_iff]
    constructor
    · rintro ⟨off, _, ha, hb, rfl, h4, r, j, hl, hd⟩
      exact ⟨hb, off, r, j, h4, hl, hd, ha⟩
    · rintro ⟨hb, off, r, j, h4, hl, hd, ha⟩
      exact ⟨off, _, ha, hb, rfl, h4, r, j, hl, hd⟩

end Sys2Proof.Machine
end

section
/-! The rules of 20_memory.md: the bus port's window (R61), its answers (R62, R64, R69), its reads and writes busy and
idle (R66 to R70), and the register that the host loads (R67). -/

namespace Sys2Proof.Machine

variable {maxLimbs : Nat}

/-! ### Bad accesses -/

/-- The bus error that answers an access of another width or at a misaligned offset (R62). -/
def busError : HostOp → Response
  | .read _ => .readError 0#32
  | .write _ _ => .writeError

theorem access_bad (s : State maxLimbs) {off : Offset} {op : HostOp} (h : ¬accessOk off op = true) :
    s.access off op = { s with response := some (busError op) } := by
  unfold State.access
  rw [if_neg h]
  cases op <;> rfl

/-- Settles O35: the answer is `busError`, the same for every state. -/
theorem badAccessesGetABusError : Obligations.BadAccessesGetABusError := by
  intro s off op rest h hbad
  have hok : ¬accessOk off op = true := by
    rw [accessOk_iff]
    exact not_and_or.2 hbad
  refine ⟨busError op, ?_, ?_, ?_⟩
  · rw [step_port h, access_bad _ hok]
  · rintro width rfl
    rfl
  · rintro width v rfl
    rfl

/-! ### Reserved offsets -/

/-- Settles O36: the location is `.reserved`, which reads 0 and whose write is the identity. -/
theorem reservedOffsetsReadZero : Obligations.ReservedOffsetsReadZero := by
  intro s off rest h4 hres
  have hl : locate off = .reserved := locate_reserved h4 hres
  refine ⟨fun h => ?_, fun v h => ?_⟩
  · rw [step_port_read h4 h, hl]
    rfl
  · rw [step_port_write h4 h, hl]
    rfl

/-! ### Writes while busy, and the writes that change state -/

/-- SIGN and the limb windows, by offset (R63). -/
theorem locate_sign_or_limb {off : Offset} (h : off = 0x018#15 ∨ (0x1000 ≤ off.toNat ∧ off.toNat < 0x5000)) :
    locate off = .sign ∨ ∃ r i, locate off = .limb r i := by
  rcases h with rfl | ⟨h1, h2⟩
  · exact .inl rfl
  · obtain ⟨r, i, hl, -⟩ := locate_limb h1 h2
    exact .inr ⟨r, i, hl⟩

/-- While busy, a write of CMD, SIGN or a limb is refused (R68). -/
theorem writeLocation_busy {s : State maxLimbs} (v : Word) {l : Location maxLimbs} (hb : s.status.busy = true)
    (h : l = .cmd ∨ l = .sign ∨ ∃ r i, l = .limb r i) : s.writeLocation v l = s.refuseWrite := by
  rcases h with rfl | rfl | ⟨r, i, rfl⟩ <;> exact if_pos hb

/-- Settles O32: the offsets of the first clause lie at CMD, SIGN or a limb, whose write is refused; those of the second
at locations whose write is the identity. -/
theorem writesWhileBusyAreRefused : Obligations.WritesWhileBusyAreRefused := by
  intro s off v rest hb h4 h
  refine ⟨_, step_port_write h4 h, rfl, fun hoff => ?_, ?_⟩
  · have hl : locate off = .cmd ∨ locate off = .sign ∨ ∃ r i, locate off = .limb r i :=
      hoff.imp (fun e : off = 0x010#15 => e ▸ locate_cmd) locate_sign_or_limb
    rw [writeLocation_busy (s := { s with agenda := rest }) v hb hl]
    rfl
  · rintro (rfl | rfl | rfl | hres)
    · rfl
    · rfl
    · rfl
    · rw [locate_reserved h4 hres]
      rfl

/-- A write that changes state is one of CTRL, STATUS, CMD, SIGN or a limb (R70). -/
theorem location_of_writeLocation_ne {s : State maxLimbs} {v : Word} {l : Location maxLimbs}
    (h : s.writeLocation v l ≠ s) :
    l = .ctrl ∨ l = .status ∨ l = .cmd ∨ l = .sign ∨ ∃ r i, l = .limb r i := by
  cases l with
  | ctrl | status | cmd | sign | limb r i => simp
  | id | param | flags | reserved => exact absurd rfl h

/-- The same by offset: the five places of R70. -/
theorem offset_of_writeLocation_ne {s : State} {v : Word} {off : Offset} (h : s.writeLocation v (locate off) ≠ s) :
    off = 0x008#15 ∨ off = 0x00C#15 ∨ off = 0x010#15 ∨ off = 0x018#15 ∨
      (0x1000 ≤ off.toNat ∧ off.toNat < 0x5000) := by
  rcases location_of_writeLocation_ne h with hl | hl | hl | hl | ⟨r, i, hl⟩
  · exact .inl (locate_ctrl_inv hl)
  · exact .inr (.inl (locate_status_inv hl))
  · exact .inr (.inr (.inl (locate_cmd_inv hl)))
  · exact .inr (.inr (.inr (.inl (locate_sign_inv hl))))
  · obtain ⟨hlo, hhi, -⟩ := locate_limb_inv hl
    have hr : r.val < 8 := r.isLt
    exact .inr (.inr (.inr (.inr ⟨by omega, by omega⟩)))

/-! ### Reads -/

/-- A read answers the same whatever is on the agenda and whatever the last answer was (R70). -/
theorem access_read_response_congr (s : State maxLimbs) (es : List Event) (a : Option Response) (off : Offset)
    (w : Width) :
    (State.access { s with agenda := es, response := a } off (.read w)).response =
      (s.access off (.read w)).response := by
  unfold State.access
  split
  · cases locate off maxLimbs <;> rfl
  · rfl

/-- Settles O34: a read changes the answer alone, and the answer depends on neither the agenda nor the last answer; a
write with an effect is one of a location of R70. -/
theorem readsChangeNothing : Obligations.ReadsChangeNothing := by
  refine ⟨fun s off width rest h => ?_, fun s off width v rest h => ⟨_, step_port h, fun hne => ?_⟩⟩
  · obtain ⟨e, he⟩ := access_of_read { s with agenda := rest } off width
    have hans : (s.access off (.read width)).response = some e := by
      rw [← access_read_response_congr s rest s.response, he]
    refine ⟨_, (step_port h).trans (congrArg _ he), rfl, fun later answer => ⟨_, step_port rfl, ?_⟩⟩
    exact (access_read_response_congr s later answer off width).trans hans
  · rcases access_cases { s with agenda := rest } off (.write width v) with ⟨e, he⟩ | ⟨v', -, -, he⟩ <;> rw [he] at hne
    · exact absurd rfl hne
    · refine offset_of_writeLocation_ne (s := { s with agenda := rest }) (v := v') fun hw => hne ?_
      rw [hw]

/-- While busy, SIGN and the limbs read 0 (R69). -/
theorem readLocation_busy {s : State maxLimbs} {l : Location maxLimbs} (hb : s.status.busy = true)
    (h : l = .sign ∨ ∃ r i, l = .limb r i) : s.readLocation l = 0#32 := by
  rcases h with rfl | ⟨r, i, rfl⟩ <;> exact if_pos hb

/-- IE is bit 0 of CTRL, and every other bit reads 0 (R29). -/
theorem ctrl_toWord_fields (c : Ctrl) : c.toWord.getLsbD 0 = c.ie ∧ c.toWord.extractLsb' 1 31 = 0#31 := by
  obtain ⟨ie⟩ := c
  cases ie <;> decide

/-- Settles O33: the answer is what the location reads as. -/
theorem readsAnswerTheContents : Obligations.ReadsAnswerTheContents := by
  intro s off rest h4 h
  exact ⟨_, s.readLocation (locate off), step_port_read h4 h, rfl,
    fun hb hoff => readLocation_busy hb (locate_sign_or_limb hoff),
    fun e => e ▸ rfl, fun e => e ▸ rfl, fun e => e ▸ ctrl_toWord_fields s.ctrl, fun e => e ▸ rfl, fun e => e ▸ rfl,
    fun e => e ▸ rfl⟩

/-! ### Limb windows -/

/-- Settles O38: `locate_limb` and `locate_limbOffset`; division by a power of two is a bit field. -/
theorem limbWindowSelectsTheLimb : Obligations.LimbWindowSelectsTheLimb := by
  refine ⟨fun off _ h1 h2 => ?_, locate_limbOffset⟩
  obtain ⟨r, i, hl, hr, hi⟩ := locate_limb h1 h2
  refine ⟨r, i, hl, hr, hi, ?_, ?_⟩
  · rw [BitVec.extractLsb'_toNat, Nat.shiftRight_eq_div_pow]
    omega
  · rw [BitVec.extractLsb'_toNat, Nat.shiftRight_eq_div_pow]
    omega

/-- A limb's offset is aligned. -/
theorem limbOffset_aligned (r : Reg) (i : Fin Config.maxLimbs) :
    (BitVec.ofNat 15 (0x1000 + 0x800 * r.val + 4 * i.val)).toNat % 4 = 0 := by
  rw [BitVec.toNat_ofNat]
  omega

theorem writeLimb_regs_same (s : State maxLimbs) (r : Reg) (i : Nat) (v : Word) :
    (s.writeLimb r i v).regs[r] = s.regs[r].setLimb i v := by
  simp

/-- After a limb write the limb is defined, and of the other limbs those are that were (R66). -/
theorem writeLimb_defd (s : State maxLimbs) (r r' : Reg) (i : Nat) {j : Nat} (v : Word) (hj : j < maxLimbs) :
    (s.writeLimb r i v).regs[r'].defd.getLsbD j = (s.regs[r'].defd.getLsbD j || decide ((r', j) = (r, i))) := by
  by_cases hr : r' = r
  · subst hr
    rw [writeLimb_regs_same, setLimb_defd _ _ _ _ hj]
    simp [eq_comm]
  · rw [(writeLimb_sameReg s i v hr).1]
    simp [hr]

/-- The limb just written reads back (R66). -/
theorem writeLimb_limb_same (s : State maxLimbs) (r : Reg) {i : Nat} (v : Word) (hi : i < maxLimbs) :
    (s.writeLimb r i v).limb r i = v := by
  have hd : (s.writeLimb r i v).regs[r].defd.getLsbD i = true := (writeLimb_defd s r r i v hi).trans (by simp)
  rw [limb_of_defd hd, writeLimb_regs_same, limbBits_setLimb_same _ _ _ hi]

/-- A limb write keeps every other limb, of the same and of the other registers (R66). -/
theorem writeLimb_limb_other (s : State maxLimbs) {r r' : Reg} {i j : Nat} (v : Word) (hj : j < maxLimbs)
    (h : (r', j) ≠ (r, i)) : (s.writeLimb r i v).limb r' j = s.limb r' j := by
  have hbits : (s.writeLimb r i v).regs[r'].limbBits j = s.regs[r'].limbBits j := by
    by_cases hr : r' = r
    · subst hr
      rw [writeLimb_regs_same, limbBits_setLimb_other _ _ _ _ hj fun e => h (by rw [e])]
    · rw [(writeLimb_sameReg s i v hr).1]
  simp only [State.limb, writeLimb_defd _ _ _ _ _ hj, h, decide_false, Bool.or_false, hbits, writeLimb_powerOns]

theorem writeLocation_limb_idle {s : State maxLimbs} (hb : s.status.busy = false) (v : Word) (r : Reg)
    (i : Fin maxLimbs) : s.writeLocation v (.limb r i) = s.writeLimb r i v := by
  simp [State.writeLocation, hb]

theorem readLocation_limb_idle {s : State maxLimbs} (hb : s.status.busy = false) (r : Reg) (i : Fin maxLimbs) :
    s.readLocation (.limb r i) = s.limb r i := by
  simp [State.readLocation, hb]

/-- Settles O39: at the limb's offset an idle write is `State.writeLimb` and an idle read is `State.limb`. -/
theorem limbAccessWhileIdle : Obligations.LimbAccessWhileIdle := by
  intro s r i rest hb
  have h4 := limbOffset_aligned r i
  have hl := locate_limbOffset r i
  refine ⟨fun v h => ?_, fun h => ?_⟩
  · have hstep : step s = .next
        { State.writeLimb { s with agenda := rest } r i v with response := some .written } := by
      rw [step_port_write h4 h, hl, writeLocation_limb_idle (s := { s with agenda := rest }) hb]
    refine ⟨_, hstep, writeLimb_limb_same _ r v i.isLt, ?_, fun r' j hj hne => ⟨?_, ?_⟩, rfl, rfl, rfl, rfl, rfl, rfl,
      rfl, rfl⟩
    · exact (writeLimb_defd _ r r i v i.isLt).trans (by simp)
    · exact writeLimb_limb_other _ v hj hne
    · exact (writeLimb_defd _ r r' i v hj).trans (by simp [hne])
  · rw [step_port_read h4 h, hl, readLocation_limb_idle hb]

/-! ### SIGN and loaded registers -/

theorem writeLocation_sign_idle {s : State maxLimbs} (hb : s.status.busy = false) (v : Word) :
    s.writeLocation v .sign = { s with sign := v.setWidth 8 } := by
  simp [State.writeLocation, hb]

theorem readLocation_sign_idle {s : State maxLimbs} (hb : s.status.busy = false) :
    s.readLocation .sign = s.sign.setWidth 32 := by
  simp [State.readLocation, hb]

/-- Settles O40: an idle write stores the low eight bits, an idle read extends them with zeros. -/
theorem signAccessWhileIdle : Obligations.SignAccessWhileIdle := by
  intro s rest hb
  refine ⟨fun v h => ?_, fun h => ⟨s.sign.setWidth 32, ?_, fun r => ?_, fun k hk => ?_⟩⟩
  · have hstep : step s = .next { s with sign := v.setWidth 8, agenda := rest, response := some .written } := by
      rw [step_port_write rfl h, locate_sign, writeLocation_sign_idle (s := { s with agenda := rest }) hb]
    exact ⟨_, hstep, fun r => by simp [State.sgn], rfl⟩
  · rw [step_port_read rfl h, locate_sign, readLocation_sign_idle hb]
  · have hr : r.val < 8 := r.isLt
    simp [State.sgn, show r.val < 32 by omega]
  · rw [BitVec.getLsbD_setWidth, BitVec.getLsbD_of_ge _ _ hk, Bool.and_false]

/-- Settles O48: `val_of_limbs` at this hardware's capacity. -/
theorem loadedLimbsGiveTheValue : Obligations.LoadedLimbsGiveTheValue :=
  fun _ _ _ hv hl hs => val_of_limbs hv hl hs

/-! ### The bus window -/

/-- Settles O58: `route` gives the offset inside the window and nothing outside. -/
theorem busAccessesAreRoutedByTheWindow : Obligations.BusAccessesAreRoutedByTheWindow := by
  intro s addr op rest h
  refine ⟨?_, fun hout => ?_⟩
  · rintro off rfl
    rw [step_bus h, step_port rfl, State.busAccess, route_window]
  · rw [step_bus h, State.busAccess, route_outside hout]

end Sys2Proof.Machine
end

section
/-! The rules of 30_encoding.md: decoding and encoding are inverse to each other (R103), the decoder accepts exactly the
legal words (R101) and agrees with the opcode table, and what an accepted word and a step do (R110, R112). The sixteen
commands of format R differ only in their opcode, the fields they use and the command those fields name; `rowsR` lists
that, each function of the encoding is tied to it once, and the rules are then proved for any row. -/

namespace Sys2Proof

open Sys2Proof.Machine

/-! ### The rows of format R -/

/-- One format-R command of R94: its opcode, its mnemonic, the fields it uses, and the command that the registers named
by its fields make. -/
structure RowR where
  op : BitVec 8
  mnemonic : String
  used : List Field
  command : (Field → Reg) → Instr

/-- R94 without LDI, in the order of the opcode table. -/
def rowsR : List RowR :=
  [ ⟨0x02#8, "MOV", [.D0, .S0], fun r => .mov (r .D0) (r .S0)⟩,
    ⟨0x03#8, "ADD", [.D0, .S0, .S1], fun r => .add (r .D0) (r .S0) (r .S1)⟩,
    ⟨0x04#8, "SUB", [.D0, .S0, .S1], fun r => .sub (r .D0) (r .S0) (r .S1)⟩,
    ⟨0x05#8, "CMP", [.S0, .S1], fun r => .cmp (r .S0) (r .S1)⟩,
    ⟨0x06#8, "TST", [.S0], fun r => .tst (r .S0)⟩,
    ⟨0x07#8, "BITLEN", [.D0, .S0], fun r => .bitlen (r .D0) (r .S0)⟩,
    ⟨0x10#8, "MUL", [.D0, .S0, .S1], fun r => .mul (r .D0) (r .S0) (r .S1)⟩,
    ⟨0x18#8, "DIVMOD", [.D0, .D1, .S0, .S1], fun r => .divmod (r .D0) (r .D1) (r .S0) (r .S1)⟩,
    ⟨0x19#8, "DIV", [.D0, .S0, .S1], fun r => .div (r .D0) (r .S0) (r .S1)⟩,
    ⟨0x1A#8, "MOD", [.D0, .S0, .S1], fun r => .mod (r .D0) (r .S0) (r .S1)⟩,
    ⟨0x20#8, "MODMUL", [.D0, .S0, .S1, .S2], fun r => .modmul (r .D0) (r .S0) (r .S1) (r .S2)⟩,
    ⟨0x28#8, "MODEXP", [.D0, .S0, .S1, .S2], fun r => .modexp (r .D0) (r .S0) (r .S1) (r .S2)⟩,
    ⟨0x30#8, "MRROUND", [.S0, .S1], fun r => .mrround (r .S0) (r .S1)⟩,
    ⟨0x38#8, "EGCD", [.D0, .D1, .D2, .S0, .S1], fun r => .egcd (r .D0) (r .D1) (r .D2) (r .S0) (r .S1)⟩,
    ⟨0x39#8, "GCD", [.D0, .S0, .S1], fun r => .gcd (r .D0) (r .S0) (r .S1)⟩,
    ⟨0x3A#8, "MODINV", [.D0, .S0, .S1], fun r => .modinv (r .D0) (r .S0) (r .S1)⟩ ]

/-- The fields a row does not use. -/
def RowR.unused (row : RowR) : List Field := [Field.D0, .D1, .D2, .S0, .S1, .S2].filter (· ∉ row.used)

theorem RowR.mem_unused {row : RowR} {f : Field} : f ∈ row.unused ↔ f ∉ row.used := by
  cases f <;> simp [RowR.unused]

/-- The destination fields a row uses, D0 first. -/
def RowR.destFields (row : RowR) : List Field := [Field.D0, .D1, .D2].filter (· ∈ row.used)

/-- The content of a field in the encoding of a row's command (R103). -/
def RowR.content (row : RowR) (r : Field → Reg) (f : Field) : BitVec 4 := if f ∈ row.used then regField (r f) else 0#4

/-- The bits of a field that a row's mask fixes: bit 3 of a used field (R93), all of an unused one (R96). -/
def RowR.fieldMask (row : RowR) (f : Field) : BitVec 4 := if f ∈ row.used then 8#4 else 15#4

/-- The row as the opcode table has it. -/
def RowR.tableRow (row : RowR) : OpcodeRow where
  mnemonic := row.mnemonic
  matchBits := wordR row.op 0 0 0 0 0 0
  mask := wordR 0xFF#8 (row.fieldMask .D0) (row.fieldMask .D1) (row.fieldMask .D2) (row.fieldMask .S0)
    (row.fieldMask .S1) (row.fieldMask .S2)

/-- The fields of `w` are as the row asks: register numbers where it uses them (R93), 0 elsewhere (R96). -/
structure RowR.Fits (row : RowR) (w : Word) : Prop where
  used : ∀ f ∈ row.used, (field w f).getLsbD 3 = false
  unused : ∀ f ∉ row.used, field w f = 0#4

/-! ### The functions of the encoding, row by row -/

section
variable {row : RowR} (h : row ∈ rowsR)
include h

theorem decode_of_row {w : Word} (hop : opcodeOf w = row.op) :
    decode w = decodeR w row.used row.unused (row.command (regOf w)) := by
  unfold decode
  rw [hop]
  fin_cases h <;> rfl

theorem encode_command (r : Field → Reg) : encode (row.command r) = wordR row.op (row.content r .D0)
    (row.content r .D1) (row.content r .D2) (row.content r .S0) (row.content r .S1) (row.content r .S2) := by
  fin_cases h <;> rfl

theorem dests_command (r : Field → Reg) : (row.command r).dests = row.destFields.map r := by
  fin_cases h <;> rfl

theorem mnemonic_command (r : Field → Reg) : mnemonic (row.command r) = row.mnemonic := by
  fin_cases h <;> rfl

theorem usedFields_row : usedFields row.op.toNat = some row.used := by
  fin_cases h <;> rfl

theorem op_ne_ldi : row.op ≠ 0x01#8 := by
  fin_cases h <;> decide

end

theorem opcodeTable_eq : opcodeTable = ⟨"LDI", 0x00000001#32, 0x000FF8FF#32⟩ :: rowsR.map RowR.tableRow := by
  decide

/-! ### The opcode of a word -/

/-- The seventeen opcodes of R94. -/
def opcodes : List Nat := 0x01 :: rowsR.map (·.op.toNat)

/-- A defined opcode is LDI's or a row's. -/
theorem ldi_or_row {w : Word} (h : (opcodeOf w).toNat ∈ opcodes) :
    opcodeOf w = 0x01#8 ∨ ∃ row ∈ rowsR, opcodeOf w = row.op := by
  rcases List.mem_cons.1 h with h1 | h1
  · exact .inl (BitVec.eq_of_toNat_eq h1)
  · obtain ⟨row, hrow, hop⟩ := List.mem_map.1 h1
    exact .inr ⟨row, hrow, BitVec.eq_of_toNat_eq hop.symm⟩

theorem decode_ldi {w : Word} (hop : opcodeOf w = 0x01#8) : decode w = decodeI w := by
  unfold decode
  rw [hop]
  rfl

theorem decode_reserved {w : Word} (h : (opcodeOf w).toNat ∉ opcodes) : decode w = .error .reservedOpcode := by
  unfold decode
  split
  case h_18 => rfl
  all_goals
    rename_i hop
    rw [hop] at h
    exact absurd (by decide) h

theorem usedFields_reserved {n : Nat} (h : n ∉ opcodes) : usedFields n = none := by
  unfold usedFields
  split
  case h_18 => rfl
  all_goals exact absurd (by decide) h

/-! ### What the decoder says, for any row -/

theorem decode_row_ok_iff {row : RowR} (h : row ∈ rowsR) {w : Word} {i : Instr} (hop : opcodeOf w = row.op) :
    decode w = .ok i ↔ row.Fits w ∧ i.wellFormed = true ∧ row.command (regOf w) = i := by
  rw [decode_of_row h hop, decodeR_ok_iff]
  constructor
  · rintro ⟨hu, hn, hw, rfl⟩
    exact ⟨⟨hu, fun f hf => hn f (RowR.mem_unused.2 hf)⟩, hw, rfl⟩
  · rintro ⟨hfit, hw, rfl⟩
    exact ⟨hfit.used, fun f hf => hfit.unused f (RowR.mem_unused.1 hf), hw, rfl⟩

/-- A word that decodes is LDI, or its fields fit the row whose command it decodes to. -/
theorem decode_ok_cases {w : Word} {i : Instr} (h : decode w = .ok i) :
    (opcodeOf w = 0x01#8 ∧ decodeI w = .ok i) ∨
      ∃ row ∈ rowsR, opcodeOf w = row.op ∧ row.Fits w ∧ i.wellFormed = true ∧ row.command (regOf w) = i := by
  have hop : (opcodeOf w).toNat ∈ opcodes := by
    by_contra hn
    rw [decode_reserved hn] at h
    cases h
  rcases ldi_or_row hop with hldi | ⟨row, hrow, hop⟩
  · exact .inl ⟨hldi, decode_ldi hldi ▸ h⟩
  · exact .inr ⟨row, hrow, hop, (decode_row_ok_iff hrow hop).1 h⟩

/-- Where the fields fit, only a repeated destination is refused (R97). -/
theorem decode_of_fits {row : RowR} (h : row ∈ rowsR) {w : Word} (hop : opcodeOf w = row.op) (hfit : row.Fits w) :
    decode w = if (row.command (regOf w)).wellFormed then .ok (row.command (regOf w))
      else .error .repeatedDestination := by
  have hc : checkFields w row.used row.unused = none :=
    checkFields_ok hfit.used fun f hf => hfit.unused f (RowR.mem_unused.1 hf)
  rw [decode_of_row h hop]
  simp only [decodeR, hc]

/-! ### Decoding and encoding are inverse -/

/-- Settles O2: by the command, each case its own round trip. -/
theorem decodeEncodeAgree : Obligations.DecodeEncodeAgree := by
  intro i
  cases i with
  | ldi d0 imm => exact Laws.RoundTrip.ldi d0 imm
  | mov d0 s0 => exact Laws.RoundTrip.mov d0 s0
  | add d0 s0 s1 => exact Laws.RoundTrip.add d0 s0 s1
  | sub d0 s0 s1 => exact Laws.RoundTrip.sub d0 s0 s1
  | cmp s0 s1 => exact Laws.RoundTrip.cmp s0 s1
  | tst s0 => exact Laws.RoundTrip.tst s0
  | bitlen d0 s0 => exact Laws.RoundTrip.bitlen d0 s0
  | mul d0 s0 s1 => exact Laws.RoundTrip.mul d0 s0 s1
  | divmod d0 d1 s0 s1 => exact Laws.RoundTrip.divmod d0 d1 s0 s1
  | div d0 s0 s1 => exact Laws.RoundTrip.div d0 s0 s1
  | mod d0 s0 s1 => exact Laws.RoundTrip.mod d0 s0 s1
  | modmul d0 s0 s1 s2 => exact Laws.RoundTrip.modmul d0 s0 s1 s2
  | modexp d0 s0 s1 s2 => exact Laws.RoundTrip.modexp d0 s0 s1 s2
  | mrround s0 s1 => exact Laws.RoundTrip.mrround s0 s1
  | egcd d0 d1 d2 s0 s1 => exact Laws.RoundTrip.egcd d0 d1 d2 s0 s1
  | gcd d0 s0 s1 => exact Laws.RoundTrip.gcd d0 s0 s1
  | modinv d0 s0 s1 => exact Laws.RoundTrip.modinv d0 s0 s1

/-- The encoder puts back the fields a fitting word has. -/
theorem RowR.content_regOf {row : RowR} {w : Word} (hfit : row.Fits w) (f : Field) :
    row.content (regOf w) f = field w f := by
  unfold RowR.content
  split
  case isTrue hf => exact regField_regOf (hfit.used f hf)
  case isFalse hf => exact (hfit.unused f hf).symm

/-- Settles O3: a format-I word is rebuilt from its register and immediate, a format-R word from its six fields. -/
theorem encodeDecodeAgree : Obligations.EncodeDecodeAgree := by
  intro w i h
  rcases decode_ok_cases h with ⟨hop, hi⟩ | ⟨row, hrow, hop, hfit, hw, rfl⟩
  · obtain ⟨h3, hz, rfl⟩ := decodeI_ok_iff.1 hi
    refine ⟨?_, rfl⟩
    rw [encode, regField_regOf h3, wordI_fields hop hz]
  · refine ⟨?_, hw⟩
    simp only [encode_command hrow, RowR.content_regOf hfit]
    rw [← hop, wordR_fields]

/-! ### Legal words -/

/-- Legal register fields are distinct exactly when the registers they name are. -/
theorem nodup_map_field_iff {w : Word} {l : List Field} (h : ∀ f ∈ l, (field w f).getLsbD 3 = false) :
    (l.map (field w)).Nodup ↔ (l.map (regOf w)).Nodup := by
  have hmap : l.map (field w) = (l.map (regOf w)).map regField := by
    rw [List.map_map]
    exact List.map_congr_left fun f hf => (regField_regOf (h f hf)).symm
  rw [hmap]
  exact List.nodup_map_iff fun _ _ => regField_injective

theorem RowR.fits_iff_all {row : RowR} {w : Word} : row.Fits w ↔
    [Field.D0, .D1, .D2, .S0, .S1, .S2].all
      (fun f => if f ∈ row.used then !(field w f).getLsbD 3 else field w f == 0#4) = true := by
  rw [List.all_eq_true]
  constructor
  · intro hfit f _
    split
    case isTrue hf => rw [hfit.used f hf]; rfl
    case isFalse hf => rw [hfit.unused f hf]; rfl
  · intro h
    have hall : ∀ f, (if f ∈ row.used then !(field w f).getLsbD 3 else field w f == 0#4) = true :=
      fun f => h f (by cases f <;> simp)
    exact ⟨fun f hf => by simpa [hf] using hall f, fun f hf => by simpa [hf] using hall f⟩

theorem legal_row_iff {row : RowR} (h : row ∈ rowsR) {w : Word} (hop : opcodeOf w = row.op) :
    legal w = true ↔ row.Fits w ∧ (row.destFields.map (field w)).Nodup := by
  rw [RowR.fits_iff_all]
  simp only [legal, hop, usedFields_row h, op_ne_ldi h, if_false, Bool.and_eq_true, decide_eq_true_eq]
  rfl

theorem legal_ldi_iff {w : Word} (hop : opcodeOf w = 0x01#8) :
    legal w = true ↔ (field w .D0).getLsbD 3 = false ∧ w.extractLsb' 12 8 = 0#8 := by
  have hbit : (field w .D0).getLsbD 3 = w.getLsbD 11 := by simp [field, Field.low]
  have hused : usedFields (0x01#8).toNat = some [.D0] := rfl
  simp only [legal, hop, hused, if_true, Bool.and_eq_true, Bool.not_eq_true', beq_iff_eq, hbit]

theorem legal_reserved {w : Word} (h : (opcodeOf w).toNat ∉ opcodes) : legal w = false := by
  simp only [legal, usedFields_reserved h]

/-- `Legal` and the decoder agree on the words of one row. -/
theorem legal_row_iff_decode {row : RowR} (h : row ∈ rowsR) {w : Word} (hop : opcodeOf w = row.op) :
    legal w = true ↔ ∃ i, decode w = .ok i := by
  have hwf (hfit : row.Fits w) :
      (row.destFields.map (field w)).Nodup ↔ (row.command (regOf w)).wellFormed = true := by
    rw [nodup_map_field_iff fun f hf => hfit.used f (by simpa using (List.mem_filter.1 hf).2)]
    simp [Instr.wellFormed, dests_command h]
  simp only [legal_row_iff h hop, decode_row_ok_iff h hop]
  constructor
  · rintro ⟨hfit, hn⟩
    exact ⟨_, hfit, (hwf hfit).1 hn, rfl⟩
  · rintro ⟨_, hfit, hw, rfl⟩
    exact ⟨hfit, (hwf hfit).2 hw⟩

theorem legal_ldi_iff_decode {w : Word} (hop : opcodeOf w = 0x01#8) : legal w = true ↔ ∃ i, decode w = .ok i := by
  simp only [legal_ldi_iff hop, decode_ldi hop, decodeI_ok_iff, exists_and_left, exists_eq', and_true]

/-- Settles O4: by the opcode, which is LDI's, a row's or reserved. -/
theorem decodeAcceptsExactlyLegalWords : Obligations.DecodeAcceptsExactlyLegalWords := by
  refine ⟨fun w => ?_, fun w h => ⟨decode_reserved h, legal_reserved h⟩⟩
  by_cases hdef : (opcodeOf w).toNat ∈ opcodes
  · rcases ldi_or_row hdef with hop | ⟨row, hrow, hop⟩
    · exact legal_ldi_iff_decode hop
    · exact legal_row_iff_decode hrow hop
  · simp [legal_reserved hdef, decode_reserved hdef]

/-! ### The opcode table -/

theorem and_eight_eq_zero_iff (v : BitVec 4) : v &&& 8#4 = 0#4 ↔ v.getLsbD 3 = false := by revert v; decide

theorem and_fifteen (v : BitVec 4) : v &&& 15#4 = v := BitVec.and_allOnes

/-- Masking a field with the row's mask checks it as the row asks. -/
theorem RowR.fits_iff_mask {row : RowR} {w : Word} : row.Fits w ↔ ∀ f, field w f &&& row.fieldMask f = 0#4 := by
  constructor
  · intro hfit f
    unfold RowR.fieldMask
    split
    case isTrue hf => exact (and_eight_eq_zero_iff _).2 (hfit.used f hf)
    case isFalse hf => rw [and_fifteen, hfit.unused f hf]
  · intro h
    refine ⟨fun f hf => (and_eight_eq_zero_iff _).1 ?_, fun f hf => ?_⟩
    · simpa only [RowR.fieldMask, hf, if_true] using h f
    · simpa only [RowR.fieldMask, hf, if_false, and_fifteen] using h f

/-- A word matches a row of the table exactly when it has the row's opcode and its fields fit. -/
theorem RowR.matches_iff {row : RowR} {w : Word} :
    w &&& row.tableRow.mask = row.tableRow.matchBits ↔ opcodeOf w = row.op ∧ row.Fits w := by
  rw [RowR.fits_iff_mask]
  refine (and_wordR_eq_iff ..).trans (and_congr_right fun _ => ⟨?_, fun h => ⟨h _, h _, h _, h _, h _, h _⟩⟩)
  rintro ⟨h0, h1, h2, h3, h4, h5⟩ f
  cases f <;> assumption

/-- LDI's zero bits are the fields D1 and D2 of format R. -/
theorem zeroBits_iff_fields {w : Word} : w.extractLsb' 12 8 = 0#8 ↔ field w .D1 = 0#4 ∧ field w .D2 = 0#4 := by
  simp only [field, Field.low, ← BitVec.toNat_inj, BitVec.extractLsb'_toNat, Nat.shiftRight_eq_div_pow,
    BitVec.toNat_ofNat]
  omega

theorem ldi_matches_iff {w : Word} : w &&& 0x000FF8FF#32 = 0x00000001#32 ↔
    opcodeOf w = 0x01#8 ∧ (field w .D0).getLsbD 3 = false ∧ w.extractLsb' 12 8 = 0#8 := by
  have hmask : 0x000FF8FF#32 = wordR 0xFF#8 8#4 15#4 15#4 0#4 0#4 0#4 := by decide
  have hmatch : 0x00000001#32 = wordR 0x01#8 0 0 0 0 0 0 := by decide
  rw [hmask, hmatch, and_wordR_eq_iff, zeroBits_iff_fields]
  refine and_congr_right fun _ => and_congr (and_eight_eq_zero_iff _) ?_
  simp only [and_fifteen, BitVec.and_zero, BitVec.ofNat_eq_ofNat, and_true]

/-- Settles O5: a word matches a row of the table exactly when its opcode and fields are what the decoder asks. -/
theorem opcodeTableAgreesWithDecode : Obligations.OpcodeTableAgreesWithDecode := by
  unfold Obligations.OpcodeTableAgreesWithDecode
  rw [opcodeTable_eq]
  constructor
  · intro w i h
    rcases decode_ok_cases h with ⟨hop, hi⟩ | ⟨row, hrow, hop, hfit, -, rfl⟩
    · obtain ⟨h3, hz, rfl⟩ := decodeI_ok_iff.1 hi
      exact ⟨_, List.mem_cons_self, rfl, ldi_matches_iff.2 ⟨hop, h3, hz⟩⟩
    · exact ⟨row.tableRow, List.mem_cons_of_mem _ (List.mem_map_of_mem hrow), (mnemonic_command hrow _).symm,
        RowR.matches_iff.2 ⟨hop, hfit⟩⟩
  · intro w _ hmem hmatch
    rcases List.mem_cons.1 hmem with rfl | hmem
    · obtain ⟨hop, h3, hz⟩ := ldi_matches_iff.1 hmatch
      exact .inl ⟨_, (decode_ldi hop).trans (decodeI_ok_iff.2 ⟨h3, hz, rfl⟩), rfl⟩
    · obtain ⟨row, hrow, rfl⟩ := List.mem_map.1 hmem
      obtain ⟨hop, hfit⟩ := RowR.matches_iff.1 hmatch
      rw [decode_of_fits hrow hop hfit]
      split
      · exact .inl ⟨_, rfl, mnemonic_command hrow _⟩
      · exact .inr rfl

/-- Settles O1: each word computed. -/
theorem exampleWordsDecode : Obligations.ExampleWordsDecode := by
  unfold Obligations.ExampleWordsDecode
  decide

/-! ### Acceptance and completion -/

theorem writeLocation_cmd_idle {maxLimbs : Nat} {s : State maxLimbs} (hb : s.status.busy = false) (w : Word) :
    s.writeLocation w .cmd = s.accept w := by
  simp [State.writeLocation, hb]

/-- Settles O31: at CMD's offset an idle write is `State.accept`, a busy one `State.refuseWrite`. -/
theorem acceptanceLatchesTheWord : Obligations.AcceptanceLatchesTheWord := by
  intro s w rest h
  have hstep := step_port_write rfl h
  rw [locate_cmd] at hstep
  refine ⟨fun hb => ?_, fun hb => ?_⟩
  · rw [writeLocation_cmd_idle (s := { s with agenda := rest }) hb] at hstep
    exact ⟨_, hstep, rfl, rfl, ⟨rfl, rfl, rfl⟩, rfl, rfl, rfl, rfl⟩
  · rw [writeLocation_busy (s := { s with agenda := rest }) w hb (.inl rfl)] at hstep
    exact hstep

/-- Settles O28: on the sequencer's turn, `step_complete_ok` and `step_complete_idle`. -/
theorem stepRunsTheDecodedCommand : Obligations.StepRunsTheDecodedCommand :=
  ⟨fun _ _ hb hturn hd => step_complete_ok (nextEvent_complete hturn) hb hd,
    fun _ hb hturn => step_complete_idle (nextEvent_complete hturn) hb⟩

end Sys2Proof
end

section
/-! The rules of 40_support.md: LDI, MOV, ADD, SUB, CMP, TST and BITLEN (R121 to R130), and ADD undone by SUB (R125).
Each command is one `finish`, so its completion is what `finish` does with one destination or with none; the encoding of
every format-R command, with the ILLEGAL_COMMAND of its opcode, is proved for any row of `rowsR`. -/

namespace Sys2Proof.Machine

variable {maxLimbs : Nat}

/-! ### Encodings and illegal words -/

/-- An illegal word completes with ILLEGAL_COMMAND and nothing else is written (R100, R214). -/
theorem step_illegal {s : State} (hb : s.status.busy = true) (he : nextEvent s = .complete)
    (hl : legal s.cmdLast = false) : ∃ t, step s = .next t ∧ ErrorCompleted s.popped t 4 := by
  cases hd : decode s.cmdLast with
  | ok i =>
    have hlegal : legal s.cmdLast = true := (decodeAcceptsExactlyLegalWords.1 _).2 ⟨i, hd⟩
    rw [hl] at hlegal
    cases hlegal
  | error e => exact ⟨_, step_complete_error he hb hd, raiseError_errorCompleted _ .illegalCommand⟩

theorem field_encode_command {row : RowR} (h : row ∈ rowsR) (r : Field → Reg) (f : Field) :
    field (encode (row.command r)) f = row.content r f := by
  rw [encode_command h, field_wordR]
  cases f <;> rfl

/-- The encoding of any format-R command, by its place in `rowsR` and the registers its fields name. -/
theorem encoded_row (k : Nat) (r : Field → Reg) (hk : k < rowsR.length := by decide) :
    Encoded (rowsR[k].command r) rowsR[k].op (rowsR[k].used.map fun f => (f, r f)) := by
  have hrow : rowsR[k] ∈ rowsR := List.getElem_mem hk
  refine ⟨?_, fun p hp => ?_, fun f hf => ?_, fun s hb he _ hl => step_illegal hb he hl⟩
  · rw [encode_command hrow, opcodeOf_wordR]
  · obtain ⟨f, hf, rfl⟩ := List.mem_map.1 hp
    rw [field_encode_command hrow, RowR.content, if_pos hf]
    rfl
  · rw [field_encode_command hrow, RowR.content, if_neg]
    intro hused
    exact hf (List.mem_map.2 ⟨_, List.mem_map_of_mem hused, rfl⟩)

/-- Registers for the six fields; a command leaves out those of the fields it does not use. -/
def operands (d0 d1 d2 s0 s1 s2 : Reg := 0) : Field → Reg
  | .D0 => d0
  | .D1 => d1
  | .D2 => d2
  | .S0 => s0
  | .S1 => s1
  | .S2 => s2

theorem legal_ldi_eq_false {w : Word} (hop : opcodeOf w = 0x01#8)
    (h : w.getLsbD 11 = true ∨ w.extractLsb' 12 8 ≠ 0#8) : legal w = false := by
  have hbit : (field w .D0).getLsbD 3 = w.getLsbD 11 := by simp [field, Field.low]
  rw [Bool.eq_false_iff, ne_eq, legal_ldi_iff hop, hbit]
  rintro ⟨h3, hz⟩
  rcases h with h | h
  · rw [h3] at h
    cases h
  · exact h hz

/-! ### Completions -/

/-- A command whose one destination value is its primary value completes when that value fits (R35, R112). -/
theorem finish_primary (s : State maxLimbs) (d : Reg) {v : Int} (h : v.natAbs ≤ Config.maxMag maxLimbs) :
    Completed s (s.finish (.ok [(d, v)] (.ofPrimary v))) [(d, v)] ∧
      (s.finish (.ok [(d, v)] (.ofPrimary v))).flags.IsPrimary v := by
  obtain ⟨hc, hf⟩ := finish_one s d (.ofPrimary v) h
  refine ⟨hc, ?_⟩
  rw [hf]
  exact ofPrimary_isPrimary v

theorem bitLen_le_of_fits {n : Nat} (h : n ≤ Config.maxMag) : bitLen n ≤ Config.maxBits :=
  (lt_two_pow_iff_bitLen_le _ _).1 ((le_maxMag_iff _).1 h)

/-! ### The commands -/

/-- Settles O6: a 12-bit immediate fits; the illegal words fail `Legal`'s check of LDI. -/
theorem ldiLoadsTheImmediate : Obligations.LdiLoadsTheImmediate := by
  intro s d0 imm
  refine ⟨⟨opcodeOf_wordI _ _, field_wordI _ _, zeroField_wordI _ _, imm_wordI _ _⟩, fun u hb he hop h => ?_, ?_⟩
  · exact step_illegal hb he (legal_ldi_eq_false hop h)
  · have hfits : (imm.toNat : Int).natAbs ≤ Config.maxMag := le_maxMag_of_small (by simp; omega)
    exact ⟨_, rfl, finish_primary s d0 hfits⟩

/-- Settles O7: the value of a register fits a register. -/
theorem movCopiesTheValue : Obligations.MovCopiesTheValue := by
  intro s d0 s0
  exact ⟨encoded_row 0 (operands (d0 := d0) (s0 := s0)), _, rfl, finish_primary s d0 (val_natAbs_le s s0)⟩

/-- Settles O8: `finish` of one value, within capacity and above it. -/
theorem addIsExactOrExceedsCapacity : Obligations.AddIsExactOrExceedsCapacity := by
  intro s d0 s0 s1
  refine ⟨encoded_row 1 (operands (d0 := d0) (s0 := s0) (s1 := s1)), fun h => ?_, fun h => ?_⟩
  · exact ⟨_, rfl, finish_primary s d0 h⟩
  · exact ⟨_, rfl, finish_one_overflow s d0 _ h⟩

/-- Settles O9: `finish` of one value, within capacity and above it. -/
theorem subIsExactOrExceedsCapacity : Obligations.SubIsExactOrExceedsCapacity := by
  intro s d0 s0 s1
  refine ⟨encoded_row 2 (operands (d0 := d0) (s0 := s0) (s1 := s1)), fun h => ?_, fun h => ?_⟩
  · exact ⟨_, rfl, finish_primary s d0 h⟩
  · exact ⟨_, rfl, finish_one_overflow s d0 _ h⟩

/-- Settles O10: `finish` with no destination, and the flags of a comparison. -/
theorem cmpComparesSignedValues : Obligations.CmpComparesSignedValues := by
  intro s s0 s1
  obtain ⟨hc, hf⟩ := finish_none s (.ofCompare (s.val s0) (s.val s1))
  refine ⟨encoded_row 3 (operands (s0 := s0) (s1 := s1)), _, rfl, hc, ?_⟩
  rw [hf]
  exact ⟨decide_eq_true_iff, decide_eq_true_iff, decide_eq_true_iff, rfl, rfl, rfl, rfl⟩

/-- Settles O11: `finish` with no destination, and the flags of the source's value. -/
theorem tstTestsTheValue : Obligations.TstTestsTheValue := by
  intro s s0
  obtain ⟨hc, hf⟩ := finish_none s (.ofPrimary (s.val s0))
  exact ⟨encoded_row 4 (operands (s0 := s0)), _, rfl, hc, hf ▸ ofPrimary_isPrimary (s.val s0)⟩

/-- Settles O12: `bitLen` is the least length, and a register's magnitude is below `2^16384`. -/
theorem bitlenIsTheLeastLength : Obligations.BitlenIsTheLeastLength := by
  intro s d0 s0
  have hfits := val_natAbs_le s s0
  obtain ⟨hc, hf⟩ := finish_primary s d0 (bitLen_fits hfits)
  exact ⟨encoded_row 5 (operands (d0 := d0) (s0 := s0)), _, _, rfl, hc, hf, bitLen_le_of_fits hfits,
    lt_two_pow_iff_bitLen_le _⟩

/-- Settles O49: the ADD leaves `y` alone, so the SUB's difference is `x`, which fits. -/
theorem addThenSubReturnsTheOperand : Obligations.AddThenSubReturnsTheOperand := by
  intro s d r x y
  obtain ⟨-, hadd, hover⟩ := addIsExactOrExceedsCapacity s d x y
  refine ⟨fun hdy h => ?_, hover⟩
  obtain ⟨u, hu, cu, -⟩ := hadd h
  have hdiff : u.val d - u.val y = s.val x := by
    have hd : u.val d = s.val x + s.val y := cu.value _ (List.mem_singleton_self _)
    obtain ⟨-, -, hy⟩ := cu.others y (by simpa using hdy.symm)
    omega
  obtain ⟨-, hsub, -⟩ := subIsExactOrExceedsCapacity u r d y
  rw [hdiff] at hsub
  obtain ⟨v, hv, cv, -⟩ := hsub (val_natAbs_le s x)
  refine ⟨u, v, hu, hv, cv.value _ (List.mem_singleton_self _), ?_⟩
  rw [cv.status]

end Sys2Proof.Machine
end

section
/-! The rules of 41_multiplier.md: MUL (R141). The magnitude of the product is the product of the magnitudes (R142), so
capacity is decided on the operands. -/

namespace Sys2Proof.Machine

/-- Settles O13: `finish` of the product, whose magnitude is `|a| * |b|`, within capacity and above it. -/
theorem mulIsExactOrExceedsCapacity : Obligations.MulIsExactOrExceedsCapacity := by
  intro s d0 s0 s1
  have hmag : (s.val s0 * s.val s1).natAbs = (s.val s0).natAbs * (s.val s1).natAbs := Int.natAbs_mul ..
  rw [← hmag]
  refine ⟨encoded_row 6 (operands (d0 := d0) (s0 := s0) (s1 := s1)), fun h => ?_, fun h => ?_⟩
  · exact ⟨_, rfl, finish_primary s d0 h⟩
  · exact ⟨_, rfl, finish_one_overflow s d0 _ h⟩

end Sys2Proof.Machine
end

section
/-! The rules of 42_divider.md: DIVMOD, DIV and MOD (R152 to R154). One division law covers the three (R151), and no
quotient or remainder of registers exceeds capacity (R155). -/

namespace Sys2Proof.Machine

variable {maxLimbs : Nat}

/-! ### The division of R151 -/

/-- Lean's `/` and `%` on `Int` are the division of R151, for every sign. -/
theorem ediv_emod_isEuclidean (a : Int) {b : Int} (hb : b ≠ 0) :
    a = a / b * b + a % b ∧ 0 ≤ a % b ∧ a % b < b.natAbs :=
  ⟨(Int.ediv_mul_add_emod a b).symm, Int.emod_nonneg a hb, Int.emod_lt a hb⟩

theorem divResult_of_ne {b : Int} (hb : b ≠ 0) (R : Result) : divResult b R = R := if_neg hb

/-- A zero divisor completes with DIVISION_BY_ZERO (R211). -/
theorem finish_divResult_zero (s : State maxLimbs) {b : Int} (hb : b = 0) (R : Result) :
    ErrorCompleted s (s.finish (divResult b R)) 1 := by
  rw [divResult, if_pos hb]
  exact raiseError_errorCompleted s .divisionByZero

/-! ### Completions -/

/-- A command whose destination values fit completes; its flags are those of its primary value (R35, R112). -/
theorem finish_values (s : State maxLimbs) {V : List (Reg × Int)} (p : Int) (hd : (V.map Prod.fst).Nodup)
    (hV : ∀ x ∈ V, x.2.natAbs ≤ Config.maxMag maxLimbs) :
    Completed s (s.finish (.ok V (.ofPrimary p))) V ∧ (s.finish (.ok V (.ofPrimary p))).flags.IsPrimary p := by
  rw [finish_ok hV]
  exact ⟨commit_completed s _ hd hV, ofPrimary_isPrimary p⟩

/-! ### The commands -/

/-- Settles O14: the division law, both values within capacity; a zero divisor and equal destinations end as errors. -/
theorem divmodIsEuclidean : Obligations.DivmodIsEuclidean := by
  intro s d0 d1 s0 s1
  refine ⟨encoded_row 7 (operands (d0 := d0) (d1 := d1) (s0 := s0) (s1 := s1)), fun hd hb => ?_, fun hd hb => ?_,
    fun hd => ?_⟩
  · have hq := ediv_fits (s.val s1) (val_natAbs_le s s0)
    have hr := emod_fits (s.val s0) hb (val_natAbs_le s s1)
    obtain ⟨hdiv, hnonneg, hlt⟩ := ediv_emod_isEuclidean (s.val s0) hb
    refine ⟨_, _, _, rfl, hdiv, hnonneg, hlt, ?_⟩
    rw [if_neg hd, divResult_of_ne hb]
    exact finish_values s _ (by simpa using hd) (by simp [hq, hr])
  · refine ⟨_, rfl, ?_⟩
    rw [if_neg hd]
    exact finish_divResult_zero s hb _
  · refine ⟨_, rfl, ?_⟩
    rw [if_pos hd]
    exact raiseError_errorCompleted s .illegalCommand

/-- Settles O15: the division law, and a quotient no larger than its dividend. -/
theorem divIsTheEuclideanQuotient : Obligations.DivIsTheEuclideanQuotient := by
  intro s d0 s0 s1
  refine ⟨encoded_row 8 (operands (d0 := d0) (s0 := s0) (s1 := s1)), fun hb => ?_, fun hb => ?_⟩
  · obtain ⟨hdiv, hnonneg, hlt⟩ := ediv_emod_isEuclidean (s.val s0) hb
    refine ⟨_, _, _, rfl, hdiv, hnonneg, hlt, ?_⟩
    rw [divResult_of_ne hb]
    exact finish_primary s d0 (ediv_fits _ (val_natAbs_le s s0))
  · exact ⟨_, rfl, finish_divResult_zero s hb _⟩

/-- Settles O16: the division law, and a remainder smaller than the divisor; it is 0 exactly when the divisor divides. -/
theorem modIsTheEuclideanRemainder : Obligations.ModIsTheEuclideanRemainder := by
  intro s d0 s0 s1
  refine ⟨encoded_row 9 (operands (d0 := d0) (s0 := s0) (s1 := s1)), fun hb => ?_, fun hb => ?_⟩
  · obtain ⟨hdiv, hnonneg, hlt⟩ := ediv_emod_isEuclidean (s.val s0) hb
    obtain ⟨hc, hp⟩ := finish_primary s d0 (emod_fits (s.val s0) hb (val_natAbs_le s s1))
    refine ⟨_, _, _, rfl, hdiv, hnonneg, hlt, ?_⟩
    rw [divResult_of_ne hb]
    refine ⟨hc, hp, Bool.eq_false_iff.2 fun hn => ?_, hp.z.trans Int.dvd_iff_emod_eq_zero.symm⟩
    exact absurd (hp.n.1 hn) hnonneg.not_gt
  · exact ⟨_, rfl, finish_divResult_zero s hb _⟩

end Sys2Proof.Machine
end

section
/-! The rules of 43_modular_multiplier.md: MODMUL (R161) and its modular laws (R162). What the command writes is said
once; the bounds, the congruence and the laws are then facts about `%`. -/

namespace Sys2Proof.Machine

/-! ### Completions -/

theorem Flags.IsPrimary.n_eq_false {f : Flags} {p : Int} (h : f.IsPrimary p) (hp : 0 ≤ p) : f.n = false :=
  Bool.eq_false_iff.2 fun hn => hp.not_gt (h.n.1 hn)

/-- With a positive modulus MODMUL completes, whatever the size of the product: the remainder is below the modulus. -/
theorem modmul_completes {s : State} {m : Reg} (d a b : Reg) (hm : 0 < s.val m) :
    ∃ t, exec (.modmul d a b m) s = .next t ∧ Completed s t [(d, s.val a * s.val b % s.val m)] ∧
      t.flags.IsPrimary (s.val a * s.val b % s.val m) := by
  refine ⟨_, rfl, ?_⟩
  rw [if_neg hm.not_ge]
  exact finish_primary s d (emod_fits _ hm.ne' (val_natAbs_le s m))

theorem mod_completes {s : State} {b : Reg} (d a : Reg) (hb : s.val b ≠ 0) :
    ∃ t, exec (.mod d a b) s = .next t ∧ Completed s t [(d, s.val a % s.val b)] := by
  refine ⟨_, rfl, ?_⟩
  rw [divResult_of_ne hb]
  exact (finish_primary s d (emod_fits _ hb (val_natAbs_le s b))).1

/-- MUL within capacity, then MOD of its product: the MUL leaves a modulus in another register alone. -/
theorem mul_then_mod {s : State} {d x y m : Reg} (hm : s.val m ≠ 0) (hdm : d ≠ m)
    (hfits : (s.val x * s.val y).natAbs ≤ Config.maxMag) :
    ∃ u v, exec (.mul d x y) s = .next u ∧ exec (.mod d d m) u = .next v ∧
      v.val d = s.val x * s.val y % s.val m := by
  rw [Int.natAbs_mul] at hfits
  obtain ⟨-, hmul, -⟩ := mulIsExactOrExceedsCapacity s d x y
  obtain ⟨u, hu, cu, -⟩ := hmul hfits
  have hprod : u.val d = s.val x * s.val y := cu.value _ (List.mem_singleton_self _)
  obtain ⟨-, -, hmod⟩ := cu.others m (by simpa using hdm.symm)
  obtain ⟨v, hv, cv⟩ := mod_completes d d (hmod ▸ hm)
  refine ⟨u, v, hu, hv, ?_⟩
  rw [← hprod, ← hmod]
  exact cv.value _ (List.mem_singleton_self _)

/-! ### The command and its laws -/

/-- Settles O17: the remainder of the product by a positive modulus lies in `[0, m)` and differs from the product by a
multiple of `m`; any other modulus ends as an error. -/
theorem modmulReducesTheProduct : Obligations.ModmulReducesTheProduct := by
  intro s d0 s0 s1 s2
  refine ⟨encoded_row 10 (operands (d0 := d0) (s0 := s0) (s1 := s1) (s2 := s2)), fun hm => ?_, fun hm => ?_⟩
  · obtain ⟨t, ht, hc, hp⟩ := modmul_completes d0 s0 s1 hm
    have hnonneg := Int.emod_nonneg (s.val s0 * s.val s1) hm.ne'
    exact ⟨t, _, ht, hnonneg, Int.emod_lt_of_pos _ hm, Int.dvd_self_sub_emod, hc, hp, hp.n_eq_false hnonneg⟩
  · refine ⟨_, rfl, ?_⟩
    rw [if_pos hm]
    exact raiseError_errorCompleted s .invalidModulus

/-- Settles O50: MODMUL leaves `x * y % m` in its destination, and each law is a law of that remainder. -/
theorem modmulAgreesWithMulThenMod : Obligations.ModmulAgreesWithMulThenMod := by
  intro s d x y m hm
  obtain ⟨w, hw, cw, -⟩ := modmul_completes d x y hm
  obtain ⟨w', hw', cw', -⟩ := modmul_completes d y x hm
  have hval : w.val d = s.val x * s.val y % s.val m := cw.value _ (List.mem_singleton_self _)
  have hval' : w'.val d = s.val y * s.val x % s.val m := cw'.value _ (List.mem_singleton_self _)
  refine ⟨w, w', hw, hw', ?_, ?_, ?_, fun hfits hdm => ?_⟩
  · rw [hval, Int.mul_emod]
  · rw [hval, hval', mul_comm]
  · rw [hval]
    exact Int.dvd_self_sub_emod
  · rw [hval]
    exact mul_then_mod hm.ne' hdm hfits

end Sys2Proof.Machine
end

section
/-! The rules of 44_modexp.md: MODEXP (R171). The square-and-multiply of the model is the power modulo `m`, whose size is
bounded by the modulus; the modulus is checked before the exponent (R223). -/

namespace Sys2Proof.Machine

/-- With a positive modulus and an exponent that is not negative MODEXP completes, whatever the size of the power: the
remainder is below the modulus. -/
theorem modexp_completes {s : State} {e m : Reg} (d b : Reg) (hm : 0 < s.val m) (he : 0 ≤ s.val e) :
    ∃ t, exec (.modexp d b e m) s = .next t ∧ Completed s t [(d, s.val b ^ (s.val e).toNat % s.val m)] ∧
      t.flags.IsPrimary (s.val b ^ (s.val e).toNat % s.val m) := by
  refine ⟨_, rfl, ?_⟩
  rw [if_neg hm.not_ge, if_neg he.not_gt, powMod_eq _ hm]
  exact finish_primary s d (emod_fits _ hm.ne' (val_natAbs_le s m))

/-- Settles O18: the power modulo a positive modulus; a negative exponent ends as an error when the modulus is
positive, and any other modulus whatever the exponent. -/
theorem modexpIsThePowerModulo : Obligations.ModexpIsThePowerModulo := by
  intro s d0 s0 s1 s2
  refine ⟨encoded_row 11 (operands (d0 := d0) (s0 := s0) (s1 := s1) (s2 := s2)), fun hm he => ?_, fun hm he => ?_,
    fun hm => ?_⟩
  · obtain ⟨t, ht, hc, hp⟩ := modexp_completes d0 s0 hm he
    exact ⟨t, _, ht, rfl, hc, hp, hp.n_eq_false (Int.emod_nonneg _ hm.ne')⟩
  · refine ⟨_, rfl, ?_⟩
    rw [if_neg hm.not_ge, if_pos he]
    exact raiseError_errorCompleted s .invalidOperand
  · refine ⟨_, rfl, ?_⟩
    rw [if_pos hm]
    exact raiseError_errorCompleted s .invalidModulus

end Sys2Proof.Machine
end

section
/-! The rules of 45_miller_rabin.md: MRROUND (R181) and the iterative form of its round (R182). After `r` squarings the
iterate is `base^(d * 2^r)` modulo `n`, so both forms look for `n - 1` among the same remainders. -/

namespace Sys2Proof.Machine

/-! ### The iterative form of R182 -/

theorem emod_pow_emod (x n : Int) (e : Nat) : (x % n) ^ e % n = x ^ e % n := (Int.mod_modEq x n).pow e

/-- The first of `r + 1` squarings may be reduced modulo `n` before the others. -/
theorem sq_emod_pow_two_pow (x n : Int) (r : Nat) : (x * x % n) ^ 2 ^ r % n = x ^ 2 ^ (r + 1) % n := by
  have hpow : x ^ 2 ^ (r + 1) = (x * x) ^ 2 ^ r := by rw [pow_succ', pow_mul, pow_two]
  rw [hpow, emod_pow_emod]

/-- The loop of R182 looks for `n - 1` among `x^2, x^4, ..., x^(2^k)` modulo `n`. -/
theorem mrSquarings_iff (n : Int) (k : Nat) :
    ∀ x : Int, mrSquarings n k x = true ↔ ∃ r < k, x ^ 2 ^ (r + 1) % n = n - 1 := by
  induction k with
  | zero => intro x; simp [mrSquarings]
  | succ k ih =>
    intro x
    have hturn : mrSquarings n (k + 1) x = true ↔ x * x % n = n - 1 ∨ mrSquarings n k (x * x % n) = true := by
      simp [mrSquarings]
    rw [hturn, ih, Nat.exists_lt_succ_left]
    simp only [sq_emod_pow_two_pow, zero_add, pow_one, pow_two]

/-- PASS of R182 as R181 words it: the test before the loop is the case `r = 0`. -/
theorem mrIterative_iff {n base : Int} {k d : Nat} (hk : 1 ≤ k) :
    mrIterative n base k d = true ↔ base ^ d % n = 1 ∨ ∃ r < k, base ^ (d * 2 ^ r) % n = n - 1 := by
  obtain ⟨j, rfl⟩ := Nat.exists_eq_add_of_le' hk
  have hround : mrIterative n base (j + 1) d = true ↔
      (base ^ d % n = 1 ∨ base ^ d % n = n - 1) ∨ mrSquarings n j (base ^ d % n) = true := by
    simp [mrIterative]
  have hiter (r : Nat) : (base ^ d % n) ^ 2 ^ r % n = base ^ (d * 2 ^ r) % n := by
    rw [pow_mul, emod_pow_emod]
  rw [hround, mrSquarings_iff, Nat.exists_lt_succ_left, or_assoc]
  simp only [hiter, pow_zero, mul_one]

/-- Settles O53: the definition and the loop say the same of the remainders of `base^(d * 2^r)`, `r < k`. -/
theorem iterativeRoundGivesTheSamePass : Obligations.IterativeRoundGivesTheSamePass := by
  intro n base k d hn hodd _ _ hsplit hd
  have hn3 : 3 ≤ n := by omega
  have hk : 1 ≤ k := by
    obtain ⟨-, -, -, hS⟩ := mr_split hn3 hodd
    rwa [(mr_split_unique hn3 hodd hsplit hd).1] at hS
  rw [Bool.eq_iff_iff, mrPass_iff hn3 hodd hsplit hd, mrIterative_iff hk]

/-! ### The command -/

/-- The split of R181 in natural numbers. -/
theorem exists_mr_split {n : Int} (hn : 3 ≤ n) (hodd : n % 2 = 1) :
    ∃ k d : Nat, n - 1 = 2 ^ k * d ∧ d % 2 = 1 ∧ 1 ≤ k := by
  obtain ⟨hsplit, hd, hnonneg, hk⟩ := mr_split hn hodd
  lift mrD n to Nat using hnonneg with d
  exact ⟨mrS n, d, hsplit, by omega, hk⟩

/-- On an accepted candidate and base MRROUND completes, writing PASS alone. -/
theorem mrround_completes {s : State} {s0 s1 : Reg} (hn : 5 ≤ s.val s0) (hodd : s.val s0 % 2 = 1)
    (hlow : 2 ≤ s.val s1) (hhigh : s.val s1 ≤ s.val s0 - 2) :
    ∃ t, exec (.mrround s0 s1) s = .next t ∧ Completed s t [] ∧
      t.flags = .ofPass (mrPass (s.val s0) (s.val s1)) := by
  refine ⟨_, rfl, ?_⟩
  rw [if_neg (by omega), if_neg (by omega)]
  exact finish_none s _

/-- Outside the domain of R181 MRROUND completes with INVALID_OPERAND. -/
theorem mrround_invalid {s : State} {s0 s1 : Reg}
    (h : s.val s0 < 5 ∨ s.val s0 % 2 = 0 ∨ s.val s1 < 2 ∨ s.val s0 - 2 < s.val s1) :
    ∃ t, exec (.mrround s0 s1) s = .next t ∧ ErrorCompleted s t 6 := by
  refine ⟨_, rfl, ?_⟩
  by_cases hn : s.val s0 < 5 ∨ s.val s0 % 2 = 0
  · rw [if_pos hn]
    exact raiseError_errorCompleted s .invalidOperand
  · rw [if_neg hn, if_pos (by omega)]
    exact raiseError_errorCompleted s .invalidOperand

/-- Settles O19: the round on the split of the candidate; each way out of the domain ends as an error. -/
theorem mrroundRunsOneRound : Obligations.MrroundRunsOneRound := by
  intro s s0 s1
  refine ⟨encoded_row 12 (operands (s0 := s0) (s1 := s1)), fun hn hodd hlow hhigh => ?_, mrround_invalid⟩
  have hn3 : 3 ≤ s.val s0 := by omega
  obtain ⟨t, ht, hc, hf⟩ := mrround_completes hn hodd hlow hhigh
  obtain ⟨k, d, hsplit, hd, hk⟩ := exists_mr_split hn3 hodd
  refine ⟨t, k, d, ht, hsplit, hd, hk, hc, ?_⟩
  rw [hf]
  exact ⟨mrPass_iff hn3 hodd hsplit hd, rfl, rfl, rfl, rfl, rfl, rfl⟩

end Sys2Proof.Machine
end

section
/-! The rules of 46_egcd.md: EGCD_ALG, its special cases and the bounds of its coefficients (R190, R191), then EGCD, GCD
and MODINV (R192, R194, R195). The coefficient of the algorithm reduced modulo `m` is the inverse, and the only one
(R196). -/

namespace Sys2Proof.Machine

/-! ### The algorithm of R190 -/

/-- The loop has ended, whatever fuel is left. -/
theorem egcdLoop_stop (fuel r0 : Nat) (s0 s1 t0 t1 : Int) : egcdLoop fuel r0 0 s0 s1 t0 t1 = (r0, s0, t0) := by
  cases fuel <;> rfl

/-- From `(0, r1)` one turn ends the loop: the quotient is 0. -/
theorem egcdLoop_zero_left {r1 : Nat} (h : r1 ≠ 0) (fuel : Nat) (s0 s1 t0 t1 : Int) :
    egcdLoop (fuel + 1) 0 r1 s0 s1 t0 t1 = (r1, s1, t1) := by
  simp [egcdLoop, h, egcdLoop_stop]

theorem egcdAlg_zero_right (a : Int) : egcdAlg a 0 = ((a.natAbs : Int), if a < 0 then -1 else 1, 0) := by
  simp only [egcdAlg, Int.natAbs_zero, egcdLoop_stop, neg_zero, ite_self, ge_iff_le, ← not_lt, ite_not]

theorem egcdAlg_zero_left {b : Int} (hb : b ≠ 0) : egcdAlg 0 b = ((b.natAbs : Int), 0, if b < 0 then -1 else 1) := by
  have hb' : b.natAbs ≠ 0 := Int.natAbs_ne_zero.2 hb
  simp only [egcdAlg, Int.natAbs_zero, egcdLoop_zero_left hb', neg_zero, ite_self, ge_iff_le, ← not_lt, ite_not]

/-- Settles O51: the loop is the relation of R190, which keeps the gcd and the Bézout equation; it turns at most once in
the special cases. -/
theorem extendedEuclidIsBezout : Obligations.ExtendedEuclidIsBezout := by
  intro a b
  obtain ⟨hg, hbezout⟩ := egcdAlg_spec a b
  exact ⟨hg, hbezout, egcdAlg_run a b, egcdAlg_zero_right 0, egcdAlg_zero_right a, egcdAlg_zero_left⟩

/-- A coefficient keeps its magnitude when its sign is adjusted. -/
theorem natAbs_ite_neg (p : Prop) [Decidable p] (x : Int) : (if p then x else -x).natAbs = x.natAbs := by
  rw [apply_ite Int.natAbs, Int.natAbs_neg, ite_self]

/-- The bounds of R191: both coefficient sequences start with weight `|b|` or `|a|`, which the loop conserves. -/
theorem egcdAlg_natAbs_le (a b : Int) :
    (egcdAlg a b).2.1.natAbs ≤ max b.natAbs 1 ∧ (egcdAlg a b).2.2.natAbs ≤ max a.natAbs 1 := by
  obtain ⟨x, y, hrun, hx, hy⟩ := egcdAlg_run a b
  have hxle : |x| ≤ max (b.natAbs : Int) 1 := by apply hrun.coefficient_le <;> simp
  have hyle : |y| ≤ max (a.natAbs : Int) 1 := by apply hrun.swap.coefficient_le <;> simp
  rw [hx, hy, natAbs_ite_neg, natAbs_ite_neg]
  rw [Int.abs_eq_natAbs] at hxle hyle
  exact_mod_cast And.intro hxle hyle

/-- Settles O52: the bounds of R191; a coefficient within them fits whenever the operands do. -/
theorem bezoutCoefficientsAreBounded : Obligations.BezoutCoefficientsAreBounded := by
  intro a b
  obtain ⟨hx, hy⟩ := egcdAlg_natAbs_le a b
  exact ⟨hx, hy, fun ha hb => ⟨le_maxMag_of_le_max_one hx hb, le_maxMag_of_le_max_one hy ha⟩⟩

/-! ### EGCD -/

/-- The check of EGCD on its destinations is that of R97. -/
theorem destinations_nodup_iff {d0 d1 d2 : Reg} : [d0, d1, d2].Nodup ↔ ¬(d0 = d1 ∨ d0 = d2 ∨ d1 = d2) := by
  simp [not_or, and_assoc]

/-- On distinct destinations EGCD completes: the results of EGCD_ALG fit a register. -/
theorem egcd_completes (s : State) {d0 d1 d2 : Reg} (s0 s1 : Reg) (hd : [d0, d1, d2].Nodup) :
    ∃ t, exec (.egcd d0 d1 d2 s0 s1) s = .next t ∧
      Completed s t [(d0, (egcdAlg (s.val s0) (s.val s1)).1), (d1, (egcdAlg (s.val s0) (s.val s1)).2.1),
        (d2, (egcdAlg (s.val s0) (s.val s1)).2.2)] ∧
      t.flags.IsPrimary (egcdAlg (s.val s0) (s.val s1)).1 := by
  obtain ⟨hg, hx, hy⟩ := egcdAlg_fits (val_natAbs_le s s0) (val_natAbs_le s s1)
  refine ⟨_, rfl, ?_⟩
  rw [if_neg (destinations_nodup_iff.1 hd)]
  exact finish_values s _ hd (by simp [hg, hx, hy])

/-- Settles O20: the results are those of EGCD_ALG, which is the relation of R190; repeated destinations end as an
error. -/
theorem egcdFollowsTheAlgorithm : Obligations.EgcdFollowsTheAlgorithm := by
  intro s d0 d1 d2 s0 s1
  refine ⟨encoded_row 13 (operands (d0 := d0) (d1 := d1) (d2 := d2) (s0 := s0) (s1 := s1)), fun hd => ?_, fun hd => ?_⟩
  · obtain ⟨t, ht, hc, hp⟩ := egcd_completes s s0 s1 hd
    obtain ⟨hg, hbezout⟩ := egcdAlg_spec (s.val s0) (s.val s1)
    obtain ⟨x, y, hrun, hx, hy⟩ := egcdAlg_run (s.val s0) (s.val s1)
    have hnonneg : 0 ≤ (egcdAlg (s.val s0) (s.val s1)).1 := hg ▸ Int.natCast_nonneg _
    rw [hx, hy] at hbezout hc
    exact ⟨t, _, x, y, ht, hrun, hc, hp, hp.n_eq_false hnonneg, hg, hbezout⟩
  · refine ⟨_, rfl, ?_⟩
    rw [if_pos (not_not.1 (destinations_nodup_iff.not.1 hd))]
    exact raiseError_errorCompleted s .illegalCommand

/-! ### GCD -/

/-- Settles O21: the library's gcd, which is 0 exactly when both sources are. -/
theorem gcdIsTheGreatestCommonDivisor : Obligations.GcdIsTheGreatestCommonDivisor := by
  intro s d0 s0 s1
  obtain ⟨hc, hp⟩ := finish_primary s d0 (gcd_fits (val_natAbs_le s s0) (val_natAbs_le s s1))
  exact ⟨encoded_row 14 (operands (d0 := d0) (s0 := s0) (s1 := s1)), _, _, rfl, hc, hp, Int.natCast_nonneg _,
    Int.gcd_dvd_left .., Int.gcd_dvd_right .., fun _ => Int.dvd_coe_gcd,
    hp.z.trans (Int.natCast_eq_zero.trans Int.gcd_eq_zero_iff)⟩

/-! ### MODINV -/

/-- The check of MODINV on the `g` of EGCD_ALG is on the gcd. -/
theorem egcdAlg_fst_eq_one_iff {a m : Int} : (egcdAlg a m).1 = 1 ↔ Int.gcd a m = 1 := by
  rw [(egcdAlg_spec a m).1, Nat.cast_eq_one]

/-- The first coefficient of coprime numbers inverts the first of them modulo the second. -/
theorem mul_egcdAlg_modEq_one {a m : Int} (h : Int.gcd a m = 1) : a * (egcdAlg a m).2.1 ≡ 1 [ZMOD m] := by
  obtain ⟨hg, hbezout⟩ := egcdAlg_spec a m
  rw [hg, h] at hbezout
  exact Int.modEq_iff_add_fac.2 ⟨_, hbezout.symm⟩

/-- Inverses modulo `m` agree modulo `m`. -/
theorem inverse_modEq_unique {a x y m : Int} (hx : a * x ≡ 1 [ZMOD m]) (hy : a * y ≡ 1 [ZMOD m]) :
    y ≡ x [ZMOD m] :=
  calc y ≡ y * 1 [ZMOD m] := by rw [mul_one]
    _ ≡ y * (a * x) [ZMOD m] := hx.symm.mul_left y
    _ ≡ a * y * x [ZMOD m] := by rw [← mul_assoc, mul_comm y]
    _ ≡ 1 * x [ZMOD m] := hy.mul_right x
    _ ≡ x [ZMOD m] := by rw [one_mul]

/-- With a positive modulus coprime to its operand MODINV completes: the remainder is below the modulus. -/
theorem modinv_completes {s : State} {a m : Reg} (d : Reg) (hm : 0 < s.val m) (hg : Int.gcd (s.val a) (s.val m) = 1) :
    ∃ t, exec (.modinv d a m) s = .next t ∧
      Completed s t [(d, (egcdAlg (s.val a) (s.val m)).2.1 % s.val m)] ∧
      t.flags.IsPrimary ((egcdAlg (s.val a) (s.val m)).2.1 % s.val m) := by
  refine ⟨_, rfl, ?_⟩
  rw [if_neg hm.not_ge, if_neg (not_not.2 (egcdAlg_fst_eq_one_iff.2 hg))]
  exact finish_primary s d (emod_fits _ hm.ne' (val_natAbs_le s m))

/-- Settles O22: the coefficient of EGCD_ALG inverts the operand modulo `m`, and so does its remainder alone in
`[0, m)`; the modulus is checked before the gcd. -/
theorem modinvIsTheInverse : Obligations.ModinvIsTheInverse := by
  intro s d0 s0 s1
  refine ⟨encoded_row 15 (operands (d0 := d0) (s0 := s0) (s1 := s1)), fun hm hg => ?_, fun hm hg => ?_, fun hm => ?_⟩
  · obtain ⟨t, ht, hc, hp⟩ := modinv_completes d0 hm hg
    have hinv := mul_egcdAlg_modEq_one hg
    have hnonneg := Int.emod_nonneg (egcdAlg (s.val s0) (s.val s1)).2.1 hm.ne'
    refine ⟨t, _, ht, hnonneg, Int.emod_lt_of_pos _ hm, fun hm2 => ?_, fun y hy0 hym hy => ?_, rfl, hc, hp,
      hp.n_eq_false hnonneg⟩
    · have hred := ((Int.mod_modEq (egcdAlg (s.val s0) (s.val s1)).2.1 (s.val s1)).mul_left (s.val s0)).trans hinv
      exact hred.eq.trans (Int.emod_eq_of_lt zero_le_one (by omega))
    · have hone : s.val s0 * y ≡ 1 [ZMOD s.val s1] := hy ▸ (Int.mod_modEq _ _).symm
      exact (Int.emod_eq_of_lt hy0 hym).symm.trans (inverse_modEq_unique hinv hone).eq
  · refine ⟨_, rfl, ?_⟩
    rw [if_neg hm.not_ge, if_pos (egcdAlg_fst_eq_one_iff.not.2 hg)]
    exact raiseError_errorCompleted s .noInverseExists
  · refine ⟨_, rfl, ?_⟩
    rw [if_pos hm]
    exact raiseError_errorCompleted s .invalidModulus

end Sys2Proof.Machine
end

section
/-! The rules of 60_exceptions.md and 70_reset_and_hazards.md: which command ends with which error code (R211 to R216,
R220), the error completion (R214, R225), the abort and the soft reset of a CTRL write (R226, R251, R253), the interrupt
(R221, R222), and that a command always ends (R263). -/

namespace Sys2Proof.Machine

/-! ### Which error a command completes with -/

theorem ErrCode.code_injective : Function.Injective ErrCode.code := by
  intro e e' h
  revert h
  cases e <;> cases e' <;> decide

theorem ErrCode.code_ne_zero (e : ErrCode) : e.code ≠ 0#4 := by
  cases e <;> decide

/-- A command fails only with the errors of its row of R220. -/
theorem FailsWith.mem_allowedErrors {i : Instr} {e : ErrCode} {s : State} (h : FailsWith i e s) :
    e ∈ allowedErrors i := by
  unfold FailsWith at h
  split at h <;> simp [allowedErrors] at h ⊢

/-- Operands call for one error at most: where a row of R220 lists two, the second needs a positive modulus (R223). -/
theorem FailsWith.unique {i : Instr} {e e' : ErrCode} {s : State} (h : FailsWith i e s) (h' : FailsWith i e' s) :
    e = e' := by
  have hmem := h.mem_allowedErrors
  have hmem' := h'.mem_allowedErrors
  cases i
  case modexp | modinv =>
    simp only [allowedErrors, List.mem_cons, List.not_mem_nil, or_false] at hmem hmem'
    obtain ⟨rfl | rfl, rfl | rfl⟩ := And.intro hmem hmem'
    · rfl
    · exact absurd h h'.1
    · exact absurd h' h.1
    · rfl
  case ldi | mov | cmp | tst | bitlen | egcd | gcd => exact absurd hmem List.not_mem_nil
  all_goals exact (List.mem_singleton.1 hmem).trans (List.mem_singleton.1 hmem').symm

/-- Operands that let a command succeed call for no error. -/
theorem Succeeds.not_failsWith {i : Instr} {e : ErrCode} {s : State} (hs : Succeeds i s) : ¬FailsWith i e s := by
  intro h
  have hmem := h.mem_allowedErrors
  cases i
  case ldi | mov | cmp | tst | bitlen | egcd | gcd => exact absurd hmem List.not_mem_nil
  case add | sub | mul =>
    obtain rfl := List.mem_singleton.1 hmem
    exact h hs
  case divmod | div | mod | modmul | mrround =>
    obtain rfl := List.mem_singleton.1 hmem
    exact hs h
  case modexp =>
    obtain rfl | rfl : e = .invalidModulus ∨ e = .invalidOperand := by simpa [allowedErrors] using hmem
    · exact hs.1 h
    · exact hs.2 h.2
  case modinv =>
    obtain rfl | rfl : e = .invalidModulus ∨ e = .noInverseExists := by simpa [allowedErrors] using hmem
    · exact hs.1 h
    · exact h.2 hs.2

section
variable {i : Instr} {s t : State} (hw : i.wellFormed = true) (hx : exec i s = .next t)
include hw hx

/-- A well-formed command ends with the code of an error exactly on the operands that call for that error. -/
theorem errcode_eq_iff_failsWith (e : ErrCode) : t.status.errcode = e.code ↔ FailsWith i e s := by
  rcases exec_outcome hw hx with ⟨h0, -, hs⟩ | ⟨e', -, rfl, he'⟩
  · rw [h0]
    exact iff_of_false e.code_ne_zero.symm hs.not_failsWith
  · constructor
    · intro hcode
      exact ErrCode.code_injective hcode ▸ he'
    · intro he
      rw [he.unique he', raiseError_status]

/-- A well-formed command that ends with the code of an error has made the error completion of R225. -/
theorem errorCompleted_of_errcode {e : ErrCode} (h : t.status.errcode = e.code) :
    ErrorCompleted s t e.code.toNat := by
  rcases exec_outcome hw hx with ⟨h0, -, -⟩ | ⟨e', -, rfl, -⟩
  · exact absurd (h.symm.trans h0) e.code_ne_zero
  · obtain rfl : e' = e := ErrCode.code_injective h
    exact raiseError_errorCompleted s e'

end

/-- Settles O23: the zero divisors are the operands that call for DIVISION_BY_ZERO. -/
theorem divisionByZeroExactlyWhen : Obligations.DivisionByZeroExactlyWhen := by
  intro i s t hw hx
  refine ⟨(errcode_eq_iff_failsWith hw hx .divisionByZero).trans ?_, errorCompleted_of_errcode hw hx (e := .divisionByZero)⟩
  cases i <;> exact Iff.rfl

/-- Settles O24: the operands that call for INVALID_MODULUS, and those that call for NO_INVERSE_EXISTS. -/
theorem modulusErrorsExactlyWhen : Obligations.ModulusErrorsExactlyWhen := by
  intro i s t hw hx
  refine ⟨(errcode_eq_iff_failsWith hw hx .invalidModulus).trans ?_,
    (errcode_eq_iff_failsWith hw hx .noInverseExists).trans ?_⟩
  · cases i <;> exact Iff.rfl
  · cases i
    case modinv => exact and_congr_left' not_le
    all_goals exact Iff.rfl

/-- Settles O25: the operands that call for INVALID_OPERAND. -/
theorem invalidOperandExactlyWhen : Obligations.InvalidOperandExactlyWhen := by
  intro i s t hw hx
  refine (errcode_eq_iff_failsWith hw hx .invalidOperand).trans ?_
  cases i
  case modexp => exact and_congr_left' not_le
  all_goals exact Iff.rfl

/-- Settles O26: the operands that call for CAPACITY_EXCEEDED. -/
theorem capacityExceededExactlyWhen : Obligations.CapacityExceededExactlyWhen := by
  intro i s t hw hx
  refine (errcode_eq_iff_failsWith hw hx .capacityExceeded).trans ?_
  cases i
  case add | sub | mul => exact not_le
  all_goals exact Iff.rfl

/-- Settles O27: the two outcomes of a well-formed command; an error is `raiseError`, the error completion. -/
theorem errorsAreListedAndWriteNothing : Obligations.ErrorsAreListedAndWriteNothing := by
  intro i s t hw hx
  rcases exec_outcome hw hx with ⟨h0, herr, -⟩ | ⟨e, hmem, rfl, -⟩
  · exact .inl ⟨herr, h0⟩
  · exact .inr ⟨e, hmem, raiseError_errorCompleted s e⟩

/-- Settles O29: `step_illegal`, on the sequencer's turn. -/
theorem illegalWordsCompleteWithTheirCode : Obligations.IllegalWordsCompleteWithTheirCode :=
  fun _ hb hturn hl => step_illegal hb (nextEvent_complete hturn) hl

/-! ### A command ends -/

/-- A command ends with BUSY = 0 and DONE = 1, with an error or without, and leaves CTRL (R112, R225). -/
theorem exec_ends {i : Instr} {s t : State} (hx : exec i s = .next t) :
    t.status.busy = false ∧ t.status.done = true ∧ t.ctrl = s.ctrl := by
  rcases exec_cases hx with ⟨V, f, -, -, -, -, rfl⟩ | ⟨e, rfl⟩
  · exact ⟨rfl, rfl, (writeAll_rest s V).ctrl⟩
  · exact ⟨rfl, rfl, rfl⟩

/-- The step on the sequencer's turn while busy ends the command, whatever the word in CMDLAST (R112). -/
theorem completion_ends {s t : State} (hb : s.status.busy = true) (he : nextEvent s = .complete)
    (hstep : step s = .next t) : t.status.busy = false ∧ t.status.done = true ∧ t.ctrl = s.ctrl := by
  cases hd : decode s.cmdLast with
  | ok i =>
    rw [step_complete_ok he hb hd] at hstep
    exact exec_ends (s := s.popped) hstep
  | error e =>
    rw [step_complete_error he hb hd] at hstep
    cases hstep
    exact ⟨rfl, rfl, rfl⟩

/-- Settles O30: `step` is total, and the sequencer's turn ends the command. -/
theorem everyCommandTerminates : Obligations.EveryCommandTerminates := by
  refine ⟨step_next, fun s t hb hturn hstep => ?_⟩
  obtain ⟨hbusy, hdone, -⟩ := completion_ends hb (nextEvent_complete hturn) hstep
  exact ⟨hbusy, hdone⟩

/-! ### CTRL writes -/

/-- The step of a CTRL write at the port (R29). -/
theorem step_port_write_ctrl {s : State} {v : Word} {rest : List Event}
    (h : s.agenda = .port 0x008#15 (.write .w32 v) :: rest) :
    step s = .next { State.writeCtrl { s with agenda := rest } v with response := some .written } :=
  step_port_write rfl h

/-- Settles O41: by the cases of a CTRL write, soft reset, abort or IE alone. -/
theorem ctrlWriteSetsEnableAndAborts : Obligations.CtrlWriteSetsEnableAndAborts := by
  intro s v rest h
  have hstep := step_port_write_ctrl h
  rcases writeCtrl_cases { s with agenda := rest } v with ⟨h2, he⟩ | ⟨h2, h1, hb, he⟩ | ⟨h2, hno, he⟩ <;>
    rw [he] at hstep <;>
    refine ⟨_, hstep, rfl, rfl, ?_⟩
  · exact ⟨(fun h => nomatch h2.symm.trans h), fun _ => ⟨rfl, rfl⟩⟩
  · have hnot : ¬(v.getLsbD 1 = false ∨ s.status.busy = false) := by
      rintro (h | h)
      · cases h1.symm.trans h
      · cases hb.symm.trans h
    exact ⟨fun _ => ⟨⟨rfl, rfl, rfl⟩, rfl, rfl, fun _ _ => rfl, fun h => absurd h hnot⟩,
      fun h => nomatch h2.symm.trans h⟩
  · have hnot : v.getLsbD 1 = true → ¬s.status.busy = true := by
      intro h1 hb
      rcases hno with h | h
      · cases h.symm.trans h1
      · cases h.symm.trans hb
    exact ⟨fun _ => ⟨⟨rfl, rfl, rfl⟩, rfl, rfl, fun h1 hb => absurd hb (hnot h1), fun _ => rfl⟩,
      fun h => nomatch h2.symm.trans h⟩

theorem writeCtrl_srst {maxLimbs : Nat} {s : State maxLimbs} {v : Word} (h2 : v.getLsbD 2 = true) :
    s.writeCtrl v = s.softReset := if_pos h2

/-- Settles O42: a CTRL write with SRST is `State.softReset`. -/
theorem softResetKeepsTheRegisters : Obligations.SoftResetKeepsTheRegisters := by
  intro s v rest h h2
  have hstep := step_port_write_ctrl h
  rw [writeCtrl_srst h2] at hstep
  exact ⟨_, hstep, rfl, rfl, rfl, rfl, rfl, rfl, rfl, rfl, rfl⟩

/-! ### The interrupt -/

section
variable {maxLimbs : Nat} (s : State maxLimbs)

/-- Acceptance clears DONE (R110). -/
theorem accept_irq (w : Word) : (s.accept w).irq = false := Bool.and_false _

/-- An acknowledgement of DONE drops IRQ (R222). -/
theorem acknowledge_irq {v : Word} (h : v.getLsbD 1 = true) : (s.acknowledge v).irq = false := by
  simp [State.irq, h]

/-- IE is bit 0 of a CTRL write, unless SRST clears it (R29). -/
theorem writeCtrl_ie (v : Word) : (s.writeCtrl v).ctrl.ie = (v.getLsbD 0 && !v.getLsbD 2) := by
  rcases writeCtrl_cases s v with ⟨h2, he⟩ | ⟨h2, -, -, he⟩ | ⟨h2, -, he⟩ <;> rw [he, h2]
  · exact (Bool.and_false _).symm
  · exact (Bool.and_true _).symm
  · exact (Bool.and_true _).symm

/-- A CTRL write without SRST never clears DONE (R226). -/
theorem writeCtrl_done {v : Word} (h2 : v.getLsbD 2 = false) (hd : s.status.done = true) :
    (s.writeCtrl v).status.done = true := by
  rcases writeCtrl_cases s v with ⟨h2', -⟩ | ⟨-, -, -, he⟩ | ⟨-, -, he⟩
  · rw [h2] at h2'
    cases h2'
  · rw [he, raiseError_status]
  · rw [he, hd]

/-- While busy, a write of a location other than CTRL and STATUS is refused or ignored, and IRQ stays (R68, R222). -/
theorem writeLocation_irq_busy (v : Word) {l : Location maxLimbs} (hb : s.status.busy = true) (hctrl : l ≠ .ctrl)
    (hstatus : l ≠ .status) : (s.writeLocation v l).irq = s.irq := by
  cases l with
  | ctrl => exact absurd rfl hctrl
  | status => exact absurd rfl hstatus
  | cmd | sign | limb r i =>
    rw [writeLocation_busy v hb (by simp)]
    rfl
  | id | param | flags | reserved => rfl

end

/-- IRQ after an aligned write at the port is that of the written location's effect. -/
theorem irq_of_step_write {s t : State} {off : Offset} {v : Word} (hstep : step s = .next t)
    (he : nextEvent s = .port off (.write .w32 v)) (h4 : off.toNat % 4 = 0) :
    t.irq = (s.popped.writeLocation v (locate off)).irq := by
  rw [step_of_accessAt (.inl he), access_write _ (accessOk_iff.2 ⟨rfl, h4⟩)] at hstep
  cases hstep
  rfl

/-- Settles O46: DONE after a completion, and the effect of each write on IE and DONE. -/
theorem interruptFollowsEnableAndDone : Obligations.InterruptFollowsEnableAndDone := by
  intro s t hstep
  refine ⟨fun hb he => ?_, fun w hb he => ?_, fun v he h1 => ?_, fun v he h0 => ?_, fun v he h0 h2 hd => ?_,
    fun off w hb he h4 hctrl hstatus => ?_⟩
  · obtain ⟨-, hdone, hctrl⟩ := completion_ends hb he hstep
    rw [State.irq, hdone, hctrl, Bool.and_true]
  · rw [irq_of_step_write hstep he rfl, locate_cmd, writeLocation_cmd_idle (s := s.popped) hb]
    exact accept_irq _ w
  · rw [irq_of_step_write hstep he rfl]
    exact acknowledge_irq _ h1
  · have hie : (s.popped.writeCtrl v).ctrl.ie = false := by rw [writeCtrl_ie, h0, Bool.false_and]
    rw [irq_of_step_write hstep he rfl]
    exact Bool.and_eq_false_imp.2 fun h => absurd (hie.symm.trans h) Bool.false_ne_true
  · have hie : (s.popped.writeCtrl v).ctrl.ie = true := by rw [writeCtrl_ie, h0, h2]; rfl
    rw [irq_of_step_write hstep he rfl]
    exact Bool.and_eq_true_iff.2 ⟨hie, writeCtrl_done s.popped h2 hd⟩
  · rw [irq_of_step_write hstep he h4]
    exact writeLocation_irq_busy s.popped w hb (mt locate_ctrl_inv hctrl) (mt locate_status_inv hstatus)

end Sys2Proof.Machine
end
